-- ==== Sys2Proof/Word.lean ====
section
/-! DEFINITION. The word types of the CHIP-8 CORE (spec/10_state.md R20, R22; spec/30_encoding.md R71).
All values are unsigned; there is no sign extension anywhere (spec/00_scope.md R9). -/

namespace Sys2Proof

/-- A byte: a `V` register, a timer, a memory cell (R20, R28, R33). -/
abbrev Byte := BitVec 8

/-- A 16-bit word: `PC`, `I`, a stack slot, an instruction word (R22, R25, R27, R70). -/
abbrev Word := BitVec 16

/-- A 4-bit field of an instruction word (R71). -/
abbrev Nibble := BitVec 4

/-- The 12-bit address field `nnn` (R71). -/
abbrev Addr := BitVec 12

/-- The number of a general register: every value of a 4-bit field names one (R20). -/
abbrev Reg := Fin 16

/-- `MEM_SIZE` (spec/00_scope.md R5): addresses 0 to 4095 exist. -/
abbrev memSize : Nat := 4096

/-- `PROGRAM_BASE` (spec/00_scope.md R5). -/
abbrev programBase : Nat := 0x200

end Sys2Proof
end

