-- ==== Sys2Proof/Config.lean ====
section
/-! DEFINITION. The open parameters of spec/00_scope.md R6 and the open schedule of R8. Each is a constant without a body, so
no proof can see its value and a statement holds for every machine of the family and every schedule. -/

namespace Sys2Proof

/-- The two policies for an unrecognized word (spec/30_encoding.md R76). -/
inductive UnrecognizedPolicy where
  | fatal
  | noop
deriving DecidableEq, Repr, Inhabited

/-- The two readings of the sub-tick remainder (spec/50_timer_display_host.md R161), on the platform side. -/
inductive TickRemainderPolicy where
  | carry
  | truncate
deriving DecidableEq, Repr, Inhabited

/-- `UNRECOGNIZED_POLICY` (R6, R76): fixed for the life of the machine. Log 3. -/
opaque Config.unrecognizedPolicy : UnrecognizedPolicy

/-- `FONT_BASE` (R6): the address of the font. Log 4. -/
opaque Config.fontBase : Word

/-- `FONT_DATA` (R6): the 80 bytes the loader places at `FONT_BASE`. Log 5. -/
opaque Config.fontData : Vector Byte 80

/-- `random_byte` (R6, R11, spec/42_load_and_alu.md R122): the bytes `draw_byte()` gives, in order. A free value: log 1. -/
opaque Config.randomByte : Nat → Byte

/-- `TICK_REMAINDER_POLICY` (R6, R161): a parameter of the platform, which no step of the CORE reads. Log 19. -/
opaque Config.tickRemainderPolicy : TickRemainderPolicy

namespace Machine

/-- The atomic operations that change state (spec/50_timer_display_host.md R170). `Load` happens inside `boot`, right after
`Reset` and before any Step (R171, R222; log 7). -/
inductive Operation where
  /-- `Step`: the CPU (R172). -/
  | step
  /-- `Tick(k)`: the timer engine (R160, R173). -/
  | tick (k : Nat)
  /-- `SetKey(k, b)`: the host (R168, R174). -/
  | setKey (k : Fin 16) (b : Bool)
  /-- `ClearRedraw`: the host (R176). -/
  | clearRedraw
  /-- `Reset`: the host (R179). -/
  | reset
  /-- `Reset`, then the font and the program image, the font first or last (R222). -/
  | boot (image : List Byte) (fontFirst : Bool)
deriving DecidableEq, Repr, Inhabited

end Machine

/-- The schedule (R8, spec/50_timer_display_host.md R180): the operations the host, the timer engine and the CPU perform, in
order, from the one numbered 0. A free value: log 6. -/
opaque Config.schedule : Nat → Machine.Operation

end Sys2Proof
end

