-- ==== Sys2Proof/Machine/State.lean ====
section
/-! DEFINITION. The state of the machine (spec/10_state.md), plain data: every piece of state the spec names, and two fields
of the model's own, `draws` and `schedule`. -/

namespace Sys2Proof.Machine

/-- The fault causes of spec/60_exceptions.md R191. -/
inductive Cause where
  | decodeError
  | boundsFetch
  | boundsMemRead
  | boundsMemWrite
  | stackOverflow
  | stackUnderflow
  | boundsKeyIndex
deriving DecidableEq, Repr

/-- The cause codes of R191 (numbers of the spec's own, D18). -/
def Cause.code : Cause → Nat
  | .decodeError => 1
  | .boundsFetch => 2
  | .boundsMemRead => 3
  | .boundsMemWrite => 4
  | .stackOverflow => 5
  | .stackUnderflow => 6
  | .boundsKeyIndex => 7

/-- The fault record of R191: `pc` at the start of the faulting Step, `op` the fetched word (absent when the fetch itself
failed), `value` the offending address or index. -/
structure FaultRecord where
  cause : Cause
  pc : Word
  op : Option Word
  value : Nat
deriving DecidableEq, Repr

/-- The halt latch (R36). -/
inductive Halt where
  | running
  | halted (f : FaultRecord)
deriving DecidableEq, Repr

/-- The operations still to come (R180). -/
inductive Schedule where
  /-- Whatever the host and the timer engine do, from their `n`-th operation on: a free value. Log 6. -/
  | free (n : Nat)
  /-- The CPU alone from here on: a host that only calls `step()` (R181). -/
  | steps
  /-- `op`, then the rest. -/
  | next (op : Operation) (rest : Schedule)
deriving DecidableEq, Repr

/-- The 4096-byte memory (R33) as its nonzero bytes: (address, byte) pairs, addresses strictly rising. -/
abbrev Memory := List Host.Cell

/-- The display buffer `pix[r][c]` (R31): 32 rows of 64 cells. -/
abbrev Display := Vector (Vector Bool 64) 32

structure State where
  /-- `V[0]` to `V[15]` (R20). -/
  v : Vector Byte 16
  /-- `I` (R27). -/
  i : Word
  /-- `PC`: the address of the instruction the next Step fetches (R22). -/
  pc : Word
  /-- `SP`: the number of live stack entries, 0 to 16 (R26). -/
  sp : Fin 17
  /-- `stack[0]` to `stack[15]` (R25). -/
  stack : Vector Word 16
  /-- `DT` (R28). -/
  dt : Byte
  /-- `ST` (R29). -/
  st : Byte
  /-- `key[0]` to `key[15]` (R30). -/
  key : Vector Bool 16
  /-- `pix` (R31). -/
  pix : Display
  /-- `redraw` (R32). -/
  redraw : Bool
  /-- `memory` (R33). -/
  memory : Memory
  /-- The halt latch with its fault record (R36). -/
  halt : Halt
  /-- The model's own: how many bytes `draw_byte()` has given (R11, R38). DESIGN CHOICE, log 1. -/
  draws : Nat
  /-- The model's own: the operations still to come (R8, R180). DESIGN CHOICE, log 6. -/
  schedule : Schedule
deriving DecidableEq, Repr

/-- Why a step has no next state. -/
inductive Fault where
  /-- Raised by `perform` when the machine is Halted and the operation is neither Reset nor boot: "A `Halted` machine has no
  `Step`" (R36, R173, R40 item 8). Safe. -/
  | halted (f : FaultRecord)
  /-- `LoadError` (R205), raised by `bootMachine` for an image longer than 3584 bytes: "the machine is then not started".
  Safe. -/
  | loadError (length : Nat)
  /-- Raised by `bootMachine` when the font would reach past address 4095, which does not exist (R60). DEDUCED, log 5.
  Safe. -/
  | fontOutsideMemory (base : Word)
deriving DecidableEq, Repr

/-- Why an instruction has no meaning. -/
inductive Refusal where
  /-- Raised by an arm of `exec` whose instruction has no meaning in the model; there is no such arm. Safe. -/
  | notModelled (mnemonic : String)
deriving DecidableEq, Repr

/-- The outcome of a step of this machine. -/
abbrev Result := Host.Outcome State Fault Refusal

/-- The machine after reset (R39, R220), before the loader runs. `draws` and `schedule` are the model's own (logs 1 and 6). -/
def State.reset : State where
  v := Vector.replicate 16 0
  i := 0
  pc := 0x200
  sp := 0
  stack := Vector.replicate 16 0
  dt := 0
  st := 0
  key := Vector.replicate 16 false
  pix := Vector.replicate 32 (Vector.replicate 64 false)
  redraw := false
  memory := []
  halt := .running
  draws := 0
  schedule := .free 0

end Sys2Proof.Machine
end

