-- ==== Sys2Proof/Machine/Ops.lean ====
section
/-! DEFINITION. The named operations over memory, registers, stack, program counter and halt latch that every meaning uses.
Taking a fault is `takeFault`; there is no return from one (spec/60_exceptions.md R203). -/

namespace Sys2Proof.Machine

/-! ### The open parameters, as the meanings and the schedule read them -/

/-- `FONT_BASE` (spec/00_scope.md R6). -/
def fontBase : Word := Config.fontBase

/-- `FONT_DATA` (R6). -/
def fontData : List Byte := Config.fontData.toList

/-- `UNRECOGNIZED_POLICY` (R6). -/
def unrecognizedPolicy : UnrecognizedPolicy := Config.unrecognizedPolicy

/-- The `k`-th byte `draw_byte()` gives: a free value (R11; log 1). -/
def randomByte (k : Nat) : Byte := Config.randomByte k

/-- The `n`-th operation of the free schedule (R8; log 6). -/
def scheduledOperation (n : Nat) : Operation := Config.schedule n

/-! ### Memory (spec/20_memory.md R50 to R59) -/

/-- `memory[a]` for an address that exists; an unlisted address holds the reset value 0 (R33). -/
def Memory.read : Memory → Nat → Byte
  | [], _ => 0
  | (k, b) :: rest, a => if k = a then b else Memory.read rest a

/-- `memory[a] <- b`, keeping the canonical form: addresses strictly rising, no zero listed. -/
def Memory.write : Memory → Nat → Byte → Memory
  | [], a, b => if b = 0 then [] else [(a, b)]
  | (k, c) :: rest, a, b =>
    if a < k then (if b = 0 then (k, c) :: rest else (a, b) :: (k, c) :: rest)
    else if a = k then (if b = 0 then rest else (a, b) :: rest)
    else (k, c) :: Memory.write rest a b

/-- The canonical form: addresses strictly rising and inside the address space (R50), no byte equal to the reset value. -/
abbrev Memory.wf (m : Memory) : Prop :=
  m.Pairwise (fun c d => c.1 < d.1) ∧ ∀ c ∈ m, c.2 ≠ 0 ∧ c.1 < memSize

/-- The `n` bytes from address `a`, ascending (R59). -/
def readBytes (m : Memory) (a : Nat) : Nat → List Byte
  | 0 => []
  | n + 1 => m.read a :: readBytes m (a + 1) n

/-- Store bytes from address `a`, ascending (R59). -/
def writeBytes (m : Memory) (a : Nat) : List Byte → Memory
  | [] => m
  | b :: rest => writeBytes (m.write a b) (a + 1) rest

/-- The lowest of the `n` addresses from `base` that does not exist, if there is one: addresses are natural numbers, never
wrapped, and all are checked before the first write (R55 to R58, spec/60_exceptions.md R201). -/
def firstOutside (base n : Nat) : Option Nat := (List.range' base n).find? (fun a => memSize ≤ a)

/-! ### Registers (spec/10_state.md R20 to R29) -/

/-- `V[r]`. -/
def State.getV (s : State) (r : Reg) : Byte := s.v[r]

/-- `V[r] <- b`. -/
def State.setV (s : State) (r : Reg) (b : Byte) : State := { s with v := s.v.set r b }

/-- The whole register group at once (`Fx65`). -/
def State.setGroup (s : State) (g : Vector Byte 16) : State := { s with v := g }

/-- `VF <- flag`, then `V[x] <- result`: the order of spec/42_load_and_alu.md R110, so that with `x = 15` the result stays. -/
def State.setFlagThenResult (s : State) (x : Reg) (flag result : Byte) : State := (s.setV 15 flag).setV x result

/-- `I <- w`. -/
def State.setI (s : State) (w : Word) : State := { s with i := w }

/-- `DT <- b`. -/
def State.setDt (s : State) (b : Byte) : State := { s with dt := b }

/-- `ST <- b`. -/
def State.setSt (s : State) (b : Byte) : State := { s with st := b }

/-- `memory` after stores. -/
def State.setMemory (s : State) (m : Memory) : State := { s with memory := m }

/-- The display after `00E0` or `Dxyn`: both set `redraw` (spec/44_display.md R140). -/
def State.setDisplay (s : State) (d : Display) : State := { s with pix := d, redraw := true }

/-- One more byte drawn. -/
def State.countDraw (s : State) : State := { s with draws := s.draws + 1 }

/-! ### Program counter (R22, R23) -/

/-- `PC <- w`. -/
def State.setPc (s : State) (w : Word) : State := { s with pc := w }

/-- `PC <- PC + 2`. -/
def State.advance (s : State) : State := s.setPc (s.pc + 2)

/-- A conditional skip: `PC <- PC + 4` when the condition holds, else `PC <- PC + 2` (spec/41_conditional_skip.md R100). -/
def State.skipIf (s : State) (c : Bool) : State := s.setPc (if c then s.pc + 4 else s.pc + 2)

/-! ### Call stack (R25, R26) -/

/-- Push: store, then increment; `none` when all 16 entries are live. -/
def State.push (s : State) (w : Word) : Option State :=
  if h : s.sp.val < 16 then
    some { s with stack := s.stack.set s.sp.val w, sp := ⟨s.sp.val + 1, by omega⟩ }
  else none

/-- Pop: decrement, then read; `none` when the stack is empty. -/
def State.pop (s : State) : Option (Word × State) :=
  if h : 0 < s.sp.val then
    some (s.stack[s.sp.val - 1], { s with sp := ⟨s.sp.val - 1, by omega⟩ })
  else none

/-! ### Faults (spec/60_exceptions.md R190 to R202) -/

/-- The record of a fault raised by the Step that starts in `s` (R191). -/
def faultRecord (cause : Cause) (op : Option Word) (value : Nat) (s : State) : FaultRecord := ⟨cause, s.pc, op, value⟩

/-- Fault entry (R202): no write of the Step takes effect, the halt latch becomes `Halted(f)`, control goes nowhere. -/
def takeFault (cause : Cause) (op : Option Word) (value : Nat) (s : State) : Result :=
  .next { s with halt := .halted (faultRecord cause op value s) }

/-- A fault raised while instruction `i` executes: its word is the fetched word (log 17). -/
def raiseIn (i : Instr) (cause : Cause) (value : Nat) (s : State) : Result := takeFault cause (some (encode i)) value s

/-! ### Fetch and the unrecognized word (spec/20_memory.md R52, spec/30_encoding.md R76) -/

/-- The two-byte fetch at `PC`, high byte first; the error is the first of the two addresses that does not exist. -/
def fetch (s : State) : Except Nat Word :=
  match firstOutside s.pc.toNat 2 with
  | some a => .error a
  | none => .ok (wordOfBytes (s.memory.read s.pc.toNat) (s.memory.read (s.pc.toNat + 1)))

/-- Executing an unrecognized word under policy `p` (R76). -/
def executeUnrecognized (p : UnrecognizedPolicy) (op : Word) (s : State) : Result :=
  match p with
  | .fatal => takeFault .decodeError (some op) op.toNat s
  | .noop => .next s.advance

end Sys2Proof.Machine
end

