-- ==== Sys2Proof/Machine/Flags.lean ====
section
/-! DEFINITION. The flag values `VF` receives, each exactly 0 or 1, and the modular results beside them
(spec/10_state.md R34, spec/42_load_and_alu.md R117 to R121, R123). Sums and differences are computed on natural numbers and
narrowed at the end. -/

namespace Sys2Proof.Machine

/-- A flag value (R34: "all exact 0 or 1"). -/
def flagByte (c : Bool) : Byte := if c then 1 else 0

/-- `(a + b) mod 256` (R117). -/
def sumByte (a b : Byte) : Byte := BitVec.ofNat 8 ((a.toNat + b.toNat) % 256)

/-- Carry out of bit 7: 1 if `a + b > 255` (R117). -/
def carryFlag (a b : Byte) : Byte := flagByte (255 < a.toNat + b.toNat)

/-- `(a - b) mod 256` (R118, R120). -/
def differenceByte (a b : Byte) : Byte := BitVec.ofNat 8 ((a.toNat + 256 - b.toNat) % 256)

/-- No borrow: 1 if `a >= b` (R118, R120). -/
def noBorrowFlag (a b : Byte) : Byte := flagByte (b.toNat ≤ a.toNat)

/-- `a >> 1`, logical (R119). -/
def shiftRightByte (a : Byte) : Byte := a >>> 1

/-- The bit shifted out at the bottom, `a & 1` (R119). -/
def lowBitFlag (a : Byte) : Byte := a &&& 1

/-- `(a << 1) mod 256` (R121). -/
def shiftLeftByte (a : Byte) : Byte := a <<< 1

/-- The bit shifted out at the top, `(a >> 7) & 1` (R121). -/
def highBitFlag (a : Byte) : Byte := (a >>> 7) &&& 1

end Sys2Proof.Machine
end

