-- ==== Sys2Proof/Machine/Operands.lean ====
section
/-! DEFINITION. The operand forms: immediates, the effective addresses through `I`, the register group of `Fx55` and `Fx65`,
the decimal digits of `Fx33`, the keys (spec/30_encoding.md R71, spec/43_index_and_memory.md R130, spec/10_state.md R30). -/

namespace Sys2Proof.Machine

/-- `nnn`, zero-extended to 16 bits (R71). -/
def addrOperand (nnn : Addr) : Word := nnn.setWidth 16

/-- A byte, zero-extended to 16 bits (R11). -/
def byteOperand (b : Byte) : Word := b.setWidth 16

/-- The address in `I` as a natural number: the base of every data access (R57, R130). -/
def State.dataAddr (s : State) : Nat := s.i.toNat

/-- `V[0]` to `V[x]`, the lowest register first (R53). -/
def State.groupUpTo (s : State) (x : Reg) : List Byte := s.v.toList.take (x.val + 1)

/-- The registers after `Fx65`: `V[k]` for `k <= x` from `memory[I + k]`, the others as they were (R136). -/
def State.groupFromMemory (s : State) (x : Reg) : Vector Byte 16 :=
  Vector.ofFn fun k => if k ≤ x then s.memory.read (s.dataAddr + k.val) else s.getV k

/-- The three decimal digits of a byte, hundreds first (R134). -/
def decimalDigits (a : Byte) : List Byte :=
  [BitVec.ofNat 8 (a.toNat / 100), BitVec.ofNat 8 (a.toNat / 10 % 10), BitVec.ofNat 8 (a.toNat % 10)]

/-- The address of glyph `b`: `FONT_BASE + 5 * b` in 16 bits; the whole byte is used (R133). -/
def glyphAddr (b : Byte) : Word := fontBase + 5 * byteOperand b

/-- The key a byte names, if the latch has it: an index above 15 is not masked (spec/41_conditional_skip.md R107). -/
def keyIndex (b : Byte) : Option (Fin 16) := if h : b.toNat < 16 then some ⟨b.toNat, h⟩ else none

/-- The least pressed key (spec/45_timer_and_key.md R151). -/
def State.leastKey (s : State) : Option (Fin 16) := (List.finRange 16).find? fun k => s.key[k]

end Sys2Proof.Machine
end

