-- ==== Sys2Proof/Machine/Alu.lean ====
section
/-! DEFINITION. Load, arithmetic, logic, shift and random: `6xkk`, `7xkk`, `8xy0` to `8xy7`, `8xyE`, `Cxkk`
(spec/42_load_and_alu.md R110 to R123). Each advances `PC` by 2 and none faults. Operands are read before any write. -/

namespace Sys2Proof.Machine

/-- `6xkk` LD Vx, kk (R111). -/
def execLdImm (x : Reg) (kk : Byte) (s : State) : Result := .next (s.setV x kk).advance

/-- `7xkk` ADD Vx, kk (R112): no carry is written (spec/90_conflicts.md C4). -/
def execAddImm (x : Reg) (kk : Byte) (s : State) : Result := .next (s.setV x (sumByte (s.getV x) kk)).advance

/-- `8xy0` LD Vx, Vy (R113). -/
def execLdReg (x y : Reg) (s : State) : Result := .next (s.setV x (s.getV y)).advance

/-- `8xy1` OR Vx, Vy (R114). -/
def execOrReg (x y : Reg) (s : State) : Result := .next (s.setV x (s.getV x ||| s.getV y)).advance

/-- `8xy2` AND Vx, Vy (R115). -/
def execAndReg (x y : Reg) (s : State) : Result := .next (s.setV x (s.getV x &&& s.getV y)).advance

/-- `8xy3` XOR Vx, Vy (R116). -/
def execXorReg (x y : Reg) (s : State) : Result := .next (s.setV x (s.getV x ^^^ s.getV y)).advance

/-- `8xy4` ADD Vx, Vy with carry out (R117). -/
def execAddReg (x y : Reg) (s : State) : Result :=
  .next (s.setFlagThenResult x (carryFlag (s.getV x) (s.getV y)) (sumByte (s.getV x) (s.getV y))).advance

/-- `8xy5` SUB Vx, Vy (R118). -/
def execSubReg (x y : Reg) (s : State) : Result :=
  .next (s.setFlagThenResult x (noBorrowFlag (s.getV x) (s.getV y)) (differenceByte (s.getV x) (s.getV y))).advance

/-- `8xy6` SHR Vx (R119): `y` is ignored. -/
def execShr (x _y : Reg) (s : State) : Result :=
  .next (s.setFlagThenResult x (lowBitFlag (s.getV x)) (shiftRightByte (s.getV x))).advance

/-- `8xy7` SUBN Vx, Vy (R120). -/
def execSubnReg (x y : Reg) (s : State) : Result :=
  .next (s.setFlagThenResult x (noBorrowFlag (s.getV y) (s.getV x)) (differenceByte (s.getV y) (s.getV x))).advance

/-- `8xyE` SHL Vx (R121): `y` is ignored. -/
def execShl (x _y : Reg) (s : State) : Result :=
  .next (s.setFlagThenResult x (highBitFlag (s.getV x)) (shiftLeftByte (s.getV x))).advance

/-- `Cxkk` RND Vx, kk (R122): a fresh draw, ANDed with `kk`. -/
def execRnd (x : Reg) (kk : Byte) (s : State) : Result := .next (s.setV x (randomByte s.draws &&& kk)).countDraw.advance

end Sys2Proof.Machine
end

