-- ==== Sys2Proof/Machine/Control.lean ====
section
/-! DEFINITION. Control transfer: `00EE`, `1nnn`, `2nnn`, `Bnnn` (spec/40_control_transfer.md R90 to R95). None adds 2 to its
target and none checks it. -/

namespace Sys2Proof.Machine

/-- `00EE` RET (R91). -/
def execRet (s : State) : Result :=
  match s.pop with
  | some (target, s') => .next (s'.setPc target)
  | none => raiseIn .ret .stackUnderflow 0 s

/-- `1nnn` JP nnn (R92). -/
def execJp (nnn : Addr) (s : State) : Result := .next (s.setPc (addrOperand nnn))

/-- `2nnn` CALL nnn (R93): the return address is `PC + 2`. -/
def execCall (nnn : Addr) (s : State) : Result :=
  match s.push (s.pc + 2) with
  | some s' => .next (s'.setPc (addrOperand nnn))
  | none => raiseIn (.call nnn) .stackOverflow 16 s

/-- `Bnnn` JP V0, nnn (R94): no wrap, no 12-bit mask. -/
def execJpV0 (nnn : Addr) (s : State) : Result := .next (s.setPc (addrOperand nnn + byteOperand (s.getV 0)))

end Sys2Proof.Machine
end

