-- ==== Sys2Proof/Machine/Display.lean ====
section
/-! DEFINITION. The display and the sprite-draw unit: `00E0`, `Dxyn` (spec/44_display.md R140 to R144). -/

namespace Sys2Proof.Machine

/-- The clear buffer. -/
def clearDisplay : Display := Vector.replicate 32 (Vector.replicate 64 false)

/-- `pix[r mod 32][c mod 64]` (R142: both coordinates are reduced, so none is out of range, R199). -/
def Display.cell (d : Display) (r c : Nat) : Bool :=
  (d[r % 32]'(Nat.mod_lt _ (by decide)))[c % 64]'(Nat.mod_lt _ (by decide))

/-- `pix[r mod 32][c mod 64] <- pix[r mod 32][c mod 64] ^ 1`. -/
def Display.toggle (d : Display) (r c : Nat) : Display :=
  d.set (r % 32) ((d[r % 32]'(Nat.mod_lt _ (by decide))).set (c % 64) (!d.cell r c) (Nat.mod_lt _ (by decide)))
    (Nat.mod_lt _ (by decide))

/-- A draw in progress: the buffer and the collision bit. -/
structure Draw where
  pix : Display
  collision : Bool
deriving DecidableEq, Repr

/-- One sprite bit that is 1 (R142): an on pixel about to be turned off is a collision. -/
def Draw.pixel (d : Draw) (r c : Nat) : Draw := ⟨d.pix.toggle r c, d.collision || d.pix.cell r c⟩

/-- One sprite bit: bit 7 is column 0; a bit that is 0 leaves its pixel alone. -/
def Draw.bit (d : Draw) (b : Byte) (r c col : Nat) : Draw :=
  if b.getLsbD (7 - col) then d.pixel r (c + col) else d

/-- One sprite row: columns 0 to 7, ascending. -/
def Draw.row (d : Draw) (b : Byte) (r c : Nat) : Draw := (List.range 8).foldl (fun acc col => acc.bit b r c col) d

/-- The rows of a sprite, ascending. -/
def Draw.rows (d : Draw) : List Byte → Nat → Nat → Draw
  | [], _, _ => d
  | b :: rest, r, c => (d.row b r c).rows rest (r + 1) c

/-- `00E0` CLS (R141). -/
def execCls (s : State) : Result := .next (s.setDisplay clearDisplay).advance

/-- `Dxyn` DRW Vx, Vy, n (R142): column from `V[x]`, row from `V[y]`, both read before any write (R144); `VF` is written
once, after the last pixel. -/
def execDrw (x y : Reg) (n : Nibble) (s : State) : Result :=
  match firstOutside s.dataAddr n.toNat with
  | some a => raiseIn (.drw x y n) .boundsMemRead a s
  | none =>
    let d := (Draw.mk s.pix false).rows (readBytes s.memory s.dataAddr n.toNat) (s.getV y).toNat (s.getV x).toNat
    .next ((s.setDisplay d.pix).setV 15 (flagByte d.collision)).advance

end Sys2Proof.Machine
end

