-- ==== Sys2Proof/Machine/Index.lean ====
section
/-! DEFINITION. Index register and memory: `Annn`, `Fx1E`, `Fx29`, `Fx33`, `Fx55`, `Fx65` (spec/43_index_and_memory.md R130 to
R136). Every address is checked before the first write; `I` is never changed by an access. -/

namespace Sys2Proof.Machine

/-- `Annn` LD I, nnn (R131). -/
def execLdI (nnn : Addr) (s : State) : Result := .next (s.setI (addrOperand nnn)).advance

/-- `Fx1E` ADD I, Vx (R132): a 16-bit add, no mask, no flag. -/
def execAddI (x : Reg) (s : State) : Result := .next (s.setI (s.i + byteOperand (s.getV x))).advance

/-- `Fx29` LD F, Vx (R133). -/
def execLdFont (x : Reg) (s : State) : Result := .next (s.setI (glyphAddr (s.getV x))).advance

/-- `Fx33` LD B, Vx (R134). -/
def execLdBcd (x : Reg) (s : State) : Result :=
  match firstOutside s.dataAddr 3 with
  | some a => raiseIn (.ldBcd x) .boundsMemWrite a s
  | none => .next (s.setMemory (writeBytes s.memory s.dataAddr (decimalDigits (s.getV x)))).advance

/-- `Fx55` LD [I], Vx (R135). -/
def execStoreRegs (x : Reg) (s : State) : Result :=
  match firstOutside s.dataAddr (x.val + 1) with
  | some a => raiseIn (.storeRegs x) .boundsMemWrite a s
  | none => .next (s.setMemory (writeBytes s.memory s.dataAddr (s.groupUpTo x))).advance

/-- `Fx65` LD Vx, [I] (R136). -/
def execLoadRegs (x : Reg) (s : State) : Result :=
  match firstOutside s.dataAddr (x.val + 1) with
  | some a => raiseIn (.loadRegs x) .boundsMemRead a s
  | none => .next (s.setGroup (s.groupFromMemory x)).advance

end Sys2Proof.Machine
end

