-- ==== Sys2Proof/Machine/Skip.lean ====
section
/-! DEFINITION. Conditional skips: `3xkk`, `4xkk`, `5xy0`, `9xy0`, `Ex9E`, `ExA1` (spec/41_conditional_skip.md R100 to R107). -/

namespace Sys2Proof.Machine

/-- `3xkk` SE Vx, kk (R101). -/
def execSeImm (x : Reg) (kk : Byte) (s : State) : Result := .next (s.skipIf (s.getV x == kk))

/-- `4xkk` SNE Vx, kk (R102). -/
def execSneImm (x : Reg) (kk : Byte) (s : State) : Result := .next (s.skipIf (s.getV x != kk))

/-- `5xy0` SE Vx, Vy (R103). -/
def execSeReg (x y : Reg) (s : State) : Result := .next (s.skipIf (s.getV x == s.getV y))

/-- `9xy0` SNE Vx, Vy (R104). -/
def execSneReg (x y : Reg) (s : State) : Result := .next (s.skipIf (s.getV x != s.getV y))

/-- `Ex9E` SKP Vx (R105, R107). -/
def execSkp (x : Reg) (s : State) : Result :=
  match keyIndex (s.getV x) with
  | some k => .next (s.skipIf s.key[k])
  | none => raiseIn (.skp x) .boundsKeyIndex (s.getV x).toNat s

/-- `ExA1` SKNP Vx (R106, R107). -/
def execSknp (x : Reg) (s : State) : Result :=
  match keyIndex (s.getV x) with
  | some k => .next (s.skipIf (!s.key[k]))
  | none => raiseIn (.sknp x) .boundsKeyIndex (s.getV x).toNat s

end Sys2Proof.Machine
end

