-- ==== Sys2Proof/Machine/TimerKey.lean ====
section
/-! DEFINITION. Timer and key-wait instructions: `Fx07`, `Fx0A`, `Fx15`, `Fx18` (spec/45_timer_and_key.md R150 to R153). -/

namespace Sys2Proof.Machine

/-- `Fx07` LD Vx, DT (R150). -/
def execLdVxDt (x : Reg) (s : State) : Result := .next (s.setV x s.dt).advance

/-- `Fx0A` LD Vx, K (R151): tests the latch once; with no key pressed nothing changes and `PC` stays. -/
def execLdVxKey (x : Reg) (s : State) : Result :=
  match s.leastKey with
  | some k => .next (s.setV x (BitVec.ofNat 8 k.val)).advance
  | none => .next s

/-- `Fx15` LD DT, Vx (R152). -/
def execLdDtVx (x : Reg) (s : State) : Result := .next (s.setDt (s.getV x)).advance

/-- `Fx18` LD ST, Vx (R153). -/
def execLdStVx (x : Reg) (s : State) : Result := .next (s.setSt (s.getV x)).advance

end Sys2Proof.Machine
end

