-- ==== Sys2Proof/Machine/HostOps.lean ====
section
/-! DEFINITION. The timer engine and the host's operations at the CORE's boundary (spec/50_timer_display_host.md R160 to
R179), each atomic and between two Steps. -/

namespace Sys2Proof.Machine

/-! ### The timer engine -/

/-- One timer after `k` ticks: `t - min(t, k)` (R160). -/
def tickByte (t : Byte) (k : Nat) : Byte := BitVec.ofNat 8 (t.toNat - min t.toNat k)

/-- `Tick(k)` (R160): both timers, by the same `k`, and nothing else. -/
def State.tick (s : State) (k : Nat) : State := { s with dt := tickByte s.dt k, st := tickByte s.st k }

/-- Platform side (R161): whole ticks in `elapsed` seconds and the remainder kept, in seconds. No step of the CORE uses it;
the CORE receives `k`. -/
def ticksOfElapsed (p : TickRemainderPolicy) (acc elapsed : Rat) : Nat × Rat :=
  match p with
  | .carry =>
    let total := acc + elapsed
    let k := (total * 60).floor.toNat
    (k, total - k / 60)
  | .truncate => ((elapsed * 60).floor.toNat, acc)

/-- `tick_timers(elapsed)` of the platform (R161): the machine after it, and the remainder. -/
def tickTimers (p : TickRemainderPolicy) (acc elapsed : Rat) (s : State) : State × Rat :=
  let r := ticksOfElapsed p acc elapsed
  (s.tick r.1, r.2)

/-! ### Latch, flag and reads -/

/-- `SetKey(k, b)` (R168). -/
def State.setKey (s : State) (k : Fin 16) (b : Bool) : State := { s with key := s.key.set k b }

/-- `ClearRedraw` (R176). -/
def State.clearRedraw (s : State) : State := { s with redraw := false }

/-- `ReadDisplay` (R175). -/
def State.readDisplay (s : State) : Display := s.pix

/-- `ReadRedraw` (R175). -/
def State.readRedraw (s : State) : Bool := s.redraw

/-- `ReadSound` (R177, R164): the tone sounds while `ST > 0`. -/
def State.readSound (s : State) : Bool := 0 < s.st.toNat

/-- `ReadFault` (R178). -/
def State.readFault (s : State) : Halt := s.halt

/-! ### Reset and load -/

/-- `Reset` (R179, R221): every piece of the machine's state at its reset value. The schedule and the draws are not state of
the machine, so they go on (logs 2 and 6). -/
def resetMachine (s : State) : State := { State.reset with draws := s.draws, schedule := s.schedule }

/-- The loader's font (R171, R222). -/
def loadFont (base : Word) (font : List Byte) (s : State) : Except Fault State :=
  if base.toNat + font.length ≤ memSize then .ok (s.setMemory (writeBytes s.memory base.toNat font))
  else .error (.fontOutsideMemory base)

/-- `Load(bytes)` (R171, R205): from 0x200 upwards, or `LoadError` with nothing written. -/
def loadImage (image : List Byte) (s : State) : Except Fault State :=
  if imageFits image then .ok (s.setMemory (writeBytes s.memory programBase image))
  else .error (.loadError image.length)

/-- The boot sequence of R222 for a font at an address: `Reset`, then the font and the image, in either order. -/
def bootWith (base : Word) (font image : List Byte) (fontFirst : Bool) (s : State) : Result :=
  let r := resetMachine s
  let loaded :=
    if fontFirst then (loadFont base font r).bind (loadImage image)
    else (loadImage image r).bind (loadFont base font)
  match loaded with
  | .ok t => .next t
  | .error f => .fault f

/-- The boot sequence with the platform's font (R6). -/
def bootMachine (image : List Byte) (fontFirst : Bool) (s : State) : Result :=
  bootWith fontBase fontData image fontFirst s

end Sys2Proof.Machine
end

