-- ==== Sys2Proof/Machine/Cycle.lean ====
section
/-! DEFINITION. The CPU's cycle (spec/50_timer_display_host.md R172) and the performing of one atomic operation of the
schedule (R170, R180). -/

namespace Sys2Proof.Machine

/-- One fetch, decode, execute of a Running machine (R172): the checks are made in the order of R201. -/
def cpuStep (s : State) : Result :=
  match fetch s with
  | .error a => takeFault .boundsFetch none a s
  | .ok op =>
    match decodeWord op with
    | some i => exec i s
    | none => executeUnrecognized unrecognizedPolicy op s

/-- One operation on a Running machine. -/
def performRunning (op : Operation) (s : State) : Result :=
  match op with
  | .step => cpuStep s
  | .tick k => .next (s.tick k)
  | .setKey k b => .next (s.setKey k b)
  | .clearRedraw => .next s.clearRedraw
  | .reset => .next (resetMachine s)
  | .boot image fontFirst => bootMachine image fontFirst s

/-- One operation on a Halted machine: only `Reset` leaves `Halted`, and until then no state changes (R36, R40, R204). -/
def performHalted (f : FaultRecord) (op : Operation) (s : State) : Result :=
  match op with
  | .step => .fault (.halted f)
  | .tick _ => .fault (.halted f)
  | .setKey _ _ => .fault (.halted f)
  | .clearRedraw => .fault (.halted f)
  | .reset => .next (resetMachine s)
  | .boot image fontFirst => bootMachine image fontFirst s

/-- One atomic operation (R170). -/
def perform (op : Operation) (s : State) : Result :=
  match s.halt with
  | .running => performRunning op s
  | .halted f => performHalted f op s

/-- The next operation (R180). A free schedule may put any operation next: any number of ticks, key changes and flag clears
stands between two Steps. -/
def nextOperation (s : State) : Operation :=
  match s.schedule with
  | .free n => scheduledOperation n
  | .steps => .step
  | .next op _ => op

/-- What a schedule holds after its next operation. -/
def Schedule.rest : Schedule → Schedule
  | .free n => .free (n + 1)
  | .steps => .steps
  | .next _ rest => rest

/-- The state with its next operation taken off the schedule. -/
def State.takeOperation (s : State) : State := { s with schedule := s.schedule.rest }

/-- The next operation, performed. -/
def performNext (s : State) : Result := perform (nextOperation s) s.takeOperation

/-- `s` with a word placed where the next Step fetches, everything set so that the next operation is that Step: the CPU alone
on the schedule, the machine Running, `PC` at an address a fetch can read (log 24). -/
def placeWord (op : Word) (s : State) : State :=
  let pc := if s.pc.toNat + 1 < memSize then s.pc else BitVec.ofNat 16 programBase
  { s with schedule := .steps, halt := .running, pc := pc, memory := writeBytes s.memory pc.toNat (bytesOfWord op) }

end Sys2Proof.Machine
end

