-- ==== Sys2Proof/Safety.lean ====
section
/-! DEFINITION. The terms claims are stated in: the machine invariant, the frame of an operation, the words of the opcode
table written as numbers, the cells a sprite covers. -/

namespace Sys2Proof.Machine

/-! ### Invariant (spec/10_state.md R24, R40) -/

/-- The memory has its canonical form, `PC` is at most 0x10FE (R24), and every live stack entry is `p + 2` for some
`p <= 4094` (R40 item 4). -/
def State.Inv (s : State) : Prop :=
  s.memory.wf ∧ s.pc.toNat ≤ 0x10FE ∧
  ∀ k : Fin 16, k.val < s.sp.val → 2 ≤ s.stack[k].toNat ∧ s.stack[k].toNat ≤ 4096

/-! ### Frames -/

/-- What an operation is said to write: registers by number, stack slots and memory bytes by address, the rest by name.
`PC` is not listed: the frame never speaks of it. -/
structure Writes where
  regs : List Reg := []
  i : Bool := false
  sp : Bool := false
  slots : List Nat := []
  dt : Bool := false
  st : Bool := false
  key : Bool := false
  pix : Bool := false
  redraw : Bool := false
  bytes : List Nat := []
  halt : Bool := false
  draws : Bool := false

/-- Everything `w` does not list is the same in `t` as in `s`, `PC` aside. -/
structure Unchanged (w : Writes) (s t : State) : Prop where
  regs : ∀ r : Reg, r ∉ w.regs → t.v[r] = s.v[r]
  i : w.i = false → t.i = s.i
  sp : w.sp = false → t.sp = s.sp
  slots : ∀ k : Fin 16, k.val ∉ w.slots → t.stack[k] = s.stack[k]
  dt : w.dt = false → t.dt = s.dt
  st : w.st = false → t.st = s.st
  key : w.key = false → t.key = s.key
  pix : w.pix = false → t.pix = s.pix
  redraw : w.redraw = false → t.redraw = s.redraw
  bytes : ∀ a : Nat, a ∉ w.bytes → t.memory.read a = s.memory.read a
  halt : w.halt = false → t.halt = s.halt
  draws : w.draws = false → t.draws = s.draws
  schedule : t.schedule = s.schedule

/-- `s` after a fault: the halt latch set, everything else as it was (spec/60_exceptions.md R202). -/
def State.faulted (s : State) (cause : Cause) (op : Option Word) (value : Nat) : State :=
  { s with halt := .halted ⟨cause, s.pc, op, value⟩ }

/-! ### Words of spec/30_encoding.md R72, written as numbers and not through the encoder -/

def wordNNN (t : Nat) (nnn : Addr) : Word := BitVec.ofNat 16 (t * 4096 + nnn.toNat)
def wordXKK (t : Nat) (x : Reg) (kk : Byte) : Word := BitVec.ofNat 16 (t * 4096 + x.val * 256 + kk.toNat)
def wordX (t : Nat) (x : Reg) (low : Nat) : Word := BitVec.ofNat 16 (t * 4096 + x.val * 256 + low)
def wordXYN (t : Nat) (x y : Reg) (n : Nat) : Word := BitVec.ofNat 16 (t * 4096 + x.val * 256 + y.val * 16 + n)

/-! ### Sprites (spec/44_display.md R142) -/

/-- Some sprite bit that is 1 lands on the cell at row `r`, column `c`. -/
def SpriteCovers (s : State) (x y : Reg) (n : Nibble) (r c : Nat) : Prop :=
  ∃ row < n.toNat, ∃ col < 8,
    (s.v[y].toNat + row) % 32 = r ∧ (s.v[x].toNat + col) % 64 = c ∧
    (s.memory.read (s.i.toNat + row)).getLsbD (7 - col) = true

/-- What the next Step would execute: the CPU is next, it is Running and the bytes at `PC` decode to `i`. -/
def WillExecute (s : State) (i : Instr) : Prop :=
  nextOperation s = .step ∧ s.halt = .running ∧ s.pc.toNat ≤ 4094 ∧
  decode [s.memory.read s.pc.toNat, s.memory.read (s.pc.toNat + 1)] = .ok (i, [])

/-- Machine construction is next: `Reset`, alone or with the loader after it. -/
def ResetIsNext (s : State) : Prop :=
  nextOperation s = .reset ∨ ∃ image fontFirst, nextOperation s = .boot image fontFirst

/-! ### Tables over the instructions -/

/-- The one fault an instruction can raise while it executes (spec/60_exceptions.md R191, R201). -/
def faultCause : Instr → Option Cause
  | .ret => some .stackUnderflow
  | .call _ => some .stackOverflow
  | .skp _ => some .boundsKeyIndex
  | .sknp _ => some .boundsKeyIndex
  | .drw _ _ _ => some .boundsMemRead
  | .loadRegs _ => some .boundsMemRead
  | .ldBcd _ => some .boundsMemWrite
  | .storeRegs _ => some .boundsMemWrite
  | _ => none

/-- The `PC` an instruction leaves when it raises no fault: the table of spec/10_state.md R23. -/
def pcAfter (s : State) : Instr → Word
  | .ret => s.stack[s.sp.val - 1]
  | .jp nnn => nnn.setWidth 16
  | .call nnn => nnn.setWidth 16
  | .jpV0 nnn => nnn.setWidth 16 + s.v[0].setWidth 16
  | .seImm x kk => if s.v[x] = kk then s.pc + 4 else s.pc + 2
  | .sneImm x kk => if s.v[x] ≠ kk then s.pc + 4 else s.pc + 2
  | .seReg x y => if s.v[x] = s.v[y] then s.pc + 4 else s.pc + 2
  | .sneReg x y => if s.v[x] ≠ s.v[y] then s.pc + 4 else s.pc + 2
  | .skp x => if ∃ k : Fin 16, s.v[x].toNat = k.val ∧ s.key[k] = true then s.pc + 4 else s.pc + 2
  | .sknp x => if ∃ k : Fin 16, s.v[x].toNat = k.val ∧ s.key[k] = false then s.pc + 4 else s.pc + 2
  | .ldVxKey _ => if ∃ k : Fin 16, s.key[k] = true then s.pc + 2 else s.pc
  | _ => s.pc + 2

end Sys2Proof.Machine
end

