-- ==== Sys2Proof/Certificates/Slice0/Obligations.lean ====
section
/-! DEFINITION. The statements for the provers. Each docstring names the rule of spec/ it formalises; where a clause rests on
one of the spec's own decisions (spec/92_eei_decisions.md) or on a choice of the model, it says so. Frames are `Unchanged`. -/

open Sys2Proof Sys2Proof.Machine

/-! ### Encoding and decoding -/

/-- Words of the spec's vectors (spec/95_test_vectors.md D1 to D8) and what they decode to. -/
def Obligations.SpelledWordsDecode : Prop :=
  decodeTableWord 16 0x00E0 = some .cls ∧ decodeTableWord 16 0x00EE = some .ret ∧
  decodeTableWord 16 0x1234 = some (.jp 0x234) ∧ decodeTableWord 16 0xA2F0 = some (.ldI 0x2F0) ∧
  decodeTableWord 16 0xD7A5 = some (.drw 7 0xA 5) ∧ decodeTableWord 16 0x8127 = some (.subnReg 1 2) ∧
  decodeTableWord 16 0x812E = some (.shl 1 2) ∧ decodeTableWord 16 0xE4A1 = some (.sknp 4) ∧
  decodeTableWord 16 0xF065 = some (.loadRegs 0) ∧ decodeTableWord 16 0x01E0 = none ∧
  decodeTableWord 16 0x5121 = none ∧ decodeTableWord 16 0x8128 = none

/-- Decoding the bytes of an encoded instruction gives it back, whatever follows them: no bit of an encoding is dropped. -/
def Obligations.EncodedInstructionDecodes : Prop :=
  ∀ (i : Instr) (rest : List Byte), decode (bytesOfWord (encode i) ++ rest) = .ok (i, rest)

/-- Every recognized word is the encoding of what it decodes to, so each word has one meaning. -/
def Obligations.DecodedWordEncodesBack : Prop :=
  ∀ (op : Word) (i : Instr), decodeWord op = some i → encode i = op

/-- R73, R75: a word is recognized exactly when a row of the table selects it, that row is the instruction's own, and no
other row selects the word. -/
def Obligations.RecognizedWordHasOneRow : Prop :=
  ∀ op : Word,
    ((decodeWord op).isSome = recognized op) ∧
    (∀ i, decodeWord op = some i → i.row ∈ opcodeTable ∧ i.row.selects op = true) ∧
    (∀ r ∈ opcodeTable, ∀ q ∈ opcodeTable, r.selects op = true → q.selects op = true → r = q)

/-! ### The cycle -/

/-- R172: a Step of a Running machine executes the instruction at `PC`. Around `exec` the step only takes its own operation
off the schedule (the model's own field, log 6); where the CPU is alone on the schedule it does nothing around it. -/
def Obligations.StepRunsDecodedInstruction : Prop :=
  ∀ (s : State) (i : Instr), WillExecute s i →
    step s = exec i s.takeOperation ∧ s.takeOperation = { s with schedule := s.schedule.rest } ∧
    (s.schedule = .steps → s.takeOperation = s)

/-- R52, R193: a fetch that reaches past address 4095 raises `BoundsError(Fetch)`, with the first address that does not
exist (which one is reported is the spec's decision D23). -/
def Obligations.FetchOutsideMemoryFaults : Prop :=
  ∀ s : State, nextOperation s = .step → s.halt = .running → 4095 ≤ s.pc.toNat →
    step s = .next (s.takeOperation.faulted .boundsFetch none (if 4095 < s.pc.toNat then s.pc.toNat else 4096))

/-- R76: an unrecognized word is a decode error under `Fatal` and a 2-byte no-op under `Noop`. Which of the two the machine
takes is the constant `unrecognizedPolicy`, without a value (log 3). -/
def Obligations.UnrecognizedWordFollowsPolicy : Prop :=
  ∀ (s : State) (op : Word), nextOperation s = .step → s.halt = .running → s.pc.toNat ≤ 4094 →
    op = wordOfBytes (s.memory.read s.pc.toNat) (s.memory.read (s.pc.toNat + 1)) → decodeWord op = none →
    step s = executeUnrecognized unrecognizedPolicy op s.takeOperation ∧
    executeUnrecognized .fatal op s.takeOperation = .next (s.takeOperation.faulted .decodeError (some op) op.toNat) ∧
    ∃ t, executeUnrecognized .noop op s.takeOperation = .next t ∧ t.pc = s.pc + 2 ∧ t.memory = s.memory ∧
      Unchanged {} s.takeOperation t

/-- R36, R40 item 8, R204: once Halted, nothing but machine construction has a next state (the halt latch is the spec's
decision D20; that SetKey and ClearRedraw stop too is DEDUCED, log 9). -/
def Obligations.HaltedMachineIsFrozen : Prop :=
  ∀ (s : State) (f : FaultRecord), s.halt = .halted f → ¬ ResetIsNext s → step s = .fault (.halted f)

/-- R179, R221: `Reset`, on a Running or a Halted machine, gives every piece of state its reset value. The draws and the
schedule are the model's own fields and go on (logs 2 and 6). -/
def Obligations.ResetRestoresEverything : Prop :=
  ∀ s : State, nextOperation s = .reset →
    step s = .next { State.reset with draws := s.draws, schedule := s.schedule.rest }

/-! ### Display instructions -/

/-- R141: `00E0` clears all 2048 cells, sets `redraw` and advances `PC`. -/
def Obligations.ClearDisplayTurnsEveryCellOff : Prop :=
  ∀ s : State, decodeWord 0x00E0 = some .cls ∧
    ∃ t, exec .cls s = .next t ∧ (∀ (r : Fin 32) (c : Fin 64), t.pix[r][c] = false) ∧ t.redraw = true ∧
      t.pc = s.pc + 2 ∧ Unchanged { pix := true, redraw := true } s t

/-- R142 to R144: `Dxyn` flips exactly the cells a 1 bit of the sprite lands on, wrapping both coordinates; `VF` is 1 exactly
when one of them was on; the coordinates are the register values before the instruction, `VF` included (the spec's derivation
R144); an address past 4095 faults before anything is drawn (precise faults: the spec's decision D10). -/
def Obligations.DrawSpriteFlipsCoveredCells : Prop :=
  ∀ (x y : Reg) (n : Nibble) (s : State), decodeWord (wordXYN 0xD x y n.toNat) = some (.drw x y n) ∧
    (n.toNat = 0 ∨ s.i.toNat + n.toNat ≤ 4096 →
      ∃ t, exec (.drw x y n) s = .next t ∧
        (∀ (r : Fin 32) (c : Fin 64), t.pix[r][c] = true ↔ (s.pix[r][c] = true ↔ ¬ SpriteCovers s x y n r c)) ∧
        ((∃ (r : Fin 32) (c : Fin 64), SpriteCovers s x y n r c ∧ s.pix[r][c] = true) → t.v[15] = 1) ∧
        ((∀ (r : Fin 32) (c : Fin 64), SpriteCovers s x y n r c → s.pix[r][c] = false) → t.v[15] = 0) ∧
        t.redraw = true ∧ t.pc = s.pc + 2 ∧ Unchanged { regs := [15], pix := true, redraw := true } s t) ∧
    (n.toNat ≠ 0 → 4096 < s.i.toNat + n.toNat →
      exec (.drw x y n) s =
        .next (s.faulted .boundsMemRead (some (wordXYN 0xD x y n.toNat)) (if s.i.toNat ≤ 4095 then 4096 else s.i.toNat)))

/-! ### Control transfer -/

/-- R91: `00EE` pops the return address into `PC` and adds nothing; on an empty stack it is `StackUnderflow` and nothing
changes. The slot numbering is the spec's decision D1. -/
def Obligations.ReturnPopsIntoPc : Prop :=
  ∀ s : State, decodeWord 0x00EE = some .ret ∧
    (0 < s.sp.val → ∃ t, exec .ret s = .next t ∧ t.sp.val + 1 = s.sp.val ∧ t.pc = s.stack[s.sp.val - 1] ∧
      Unchanged { sp := true } s t) ∧
    (s.sp.val = 0 → exec .ret s = .next (s.faulted .stackUnderflow (some 0x00EE) 0))

/-- R92: `1nnn` writes `nnn` to `PC` and nothing else; a jump to itself changes nothing at all; after a jump to 0xFFF the next
fetch faults with address 4096, and that fault writes the halt latch and nothing else (the spec's decisions D10, D20 and D23,
logs 14 and 15). -/
def Obligations.JumpWritesTargetOnly : Prop :=
  ∀ (nnn : Addr) (s : State), decodeWord (wordNNN 1 nnn) = some (.jp nnn) ∧
    ∃ t, exec (.jp nnn) s = .next t ∧ t.pc.toNat = nnn.toNat ∧ Unchanged {} s t ∧ (nnn.toNat = s.pc.toNat → t = s) ∧
      (nnn = 0xFFF → t.halt = .running → nextOperation t = .step →
        step t = .next (t.takeOperation.faulted .boundsFetch none 4096))

/-- R93: `2nnn` pushes `PC + 2` and jumps; with 16 live entries it is `StackOverflow` and nothing changes. The slot numbering
is the spec's decision D1. -/
def Obligations.CallPushesReturnAddress : Prop :=
  ∀ (nnn : Addr) (s : State), decodeWord (wordNNN 2 nnn) = some (.call nnn) ∧
    (∀ h : s.sp.val < 16, ∃ t, exec (.call nnn) s = .next t ∧ t.stack[s.sp.val] = s.pc + 2 ∧ t.sp.val = s.sp.val + 1 ∧
      t.pc.toNat = nnn.toNat ∧ Unchanged { sp := true, slots := [s.sp.val] } s t) ∧
    (s.sp.val = 16 → exec (.call nnn) s = .next (s.faulted .stackOverflow (some (wordNNN 2 nnn)) 16))

/-- R94: `Bnnn` writes `nnn + V[0]` to `PC`, not reduced; after a sum above 4094 the next fetch faults, with `PC` or 4096
as its address, and that fault writes the halt latch and nothing else (the spec's decisions D10, D20 and D23, logs 14
and 15). -/
def Obligations.JumpWithOffsetAddsV0 : Prop :=
  ∀ (nnn : Addr) (s : State), decodeWord (wordNNN 0xB nnn) = some (.jpV0 nnn) ∧
    ∃ t, exec (.jpV0 nnn) s = .next t ∧ t.pc.toNat = nnn.toNat + s.v[0].toNat ∧ Unchanged {} s t ∧
      (4094 < nnn.toNat + s.v[0].toNat → t.halt = .running → nextOperation t = .step →
        step t = .next (t.takeOperation.faulted .boundsFetch none
          (if 4095 < nnn.toNat + s.v[0].toNat then nnn.toNat + s.v[0].toNat else 4096)))

/-- R91's property: `00EE` right after `2nnn` returns to the instruction following the call. -/
def Obligations.ReturnAfterCallResumes : Prop :=
  ∀ (nnn : Addr) (s : State), s.sp.val < 16 →
    ∃ t u, exec (.call nnn) s = .next t ∧ exec .ret t = .next u ∧ u.pc = s.pc + 2 ∧
      Unchanged { slots := [s.sp.val] } s u

/-! ### Conditional skips -/

/-- R101: `3xkk`. -/
def Obligations.SkipIfEqualByte : Prop :=
  ∀ (x : Reg) (kk : Byte) (s : State), decodeWord (wordXKK 3 x kk) = some (.seImm x kk) ∧
    ∃ t, exec (.seImm x kk) s = .next t ∧ (s.v[x].toNat = kk.toNat → t.pc = s.pc + 4) ∧
      (s.v[x].toNat ≠ kk.toNat → t.pc = s.pc + 2) ∧ Unchanged {} s t

/-- R102: `4xkk`. -/
def Obligations.SkipIfNotEqualByte : Prop :=
  ∀ (x : Reg) (kk : Byte) (s : State), decodeWord (wordXKK 4 x kk) = some (.sneImm x kk) ∧
    ∃ t, exec (.sneImm x kk) s = .next t ∧ (s.v[x].toNat ≠ kk.toNat → t.pc = s.pc + 4) ∧
      (s.v[x].toNat = kk.toNat → t.pc = s.pc + 2) ∧ Unchanged {} s t

/-- R103: `5xy0`. That other low nibbles are unrecognized is the spec's decision D3 (log 22). -/
def Obligations.SkipIfEqualRegisters : Prop :=
  ∀ (x y : Reg) (s : State), decodeWord (wordXYN 5 x y 0) = some (.seReg x y) ∧
    (∀ n : Fin 16, n ≠ 0 → decodeWord (wordXYN 5 x y n) = none) ∧
    ∃ t, exec (.seReg x y) s = .next t ∧ (s.v[x].toNat = s.v[y].toNat → t.pc = s.pc + 4) ∧
      (s.v[x].toNat ≠ s.v[y].toNat → t.pc = s.pc + 2) ∧ Unchanged {} s t

/-- R104: `9xy0`. That other low nibbles are unrecognized is the spec's decision D3 (log 22). -/
def Obligations.SkipIfNotEqualRegisters : Prop :=
  ∀ (x y : Reg) (s : State), decodeWord (wordXYN 9 x y 0) = some (.sneReg x y) ∧
    (∀ n : Fin 16, n ≠ 0 → decodeWord (wordXYN 9 x y n) = none) ∧
    ∃ t, exec (.sneReg x y) s = .next t ∧ (s.v[x].toNat ≠ s.v[y].toNat → t.pc = s.pc + 4) ∧
      (s.v[x].toNat = s.v[y].toNat → t.pc = s.pc + 2) ∧ Unchanged {} s t

/-- R105: `Ex9E`. An index above 15 is `BoundsError(KeyIndex)`: the spec's decision D7. -/
def Obligations.SkipIfKeyPressed : Prop :=
  ∀ (x : Reg) (s : State), decodeWord (wordX 0xE x 0x9E) = some (.skp x) ∧
    (∀ k : Fin 16, s.v[x].toNat = k.val → ∃ t, exec (.skp x) s = .next t ∧ (s.key[k] = true → t.pc = s.pc + 4) ∧
      (s.key[k] = false → t.pc = s.pc + 2) ∧ Unchanged {} s t) ∧
    (15 < s.v[x].toNat →
      exec (.skp x) s = .next (s.faulted .boundsKeyIndex (some (wordX 0xE x 0x9E)) s.v[x].toNat))

/-- R106: `ExA1`. An index above 15 is `BoundsError(KeyIndex)`: the spec's decision D7. -/
def Obligations.SkipIfKeyNotPressed : Prop :=
  ∀ (x : Reg) (s : State), decodeWord (wordX 0xE x 0xA1) = some (.sknp x) ∧
    (∀ k : Fin 16, s.v[x].toNat = k.val → ∃ t, exec (.sknp x) s = .next t ∧ (s.key[k] = false → t.pc = s.pc + 4) ∧
      (s.key[k] = true → t.pc = s.pc + 2) ∧ Unchanged {} s t) ∧
    (15 < s.v[x].toNat →
      exec (.sknp x) s = .next (s.faulted .boundsKeyIndex (some (wordX 0xE x 0xA1)) s.v[x].toNat))

/-! ### Load, arithmetic, logic, shift, random -/

/-- R111: `6xkk`. -/
def Obligations.LoadByteIntoRegister : Prop :=
  ∀ (x : Reg) (kk : Byte) (s : State), decodeWord (wordXKK 6 x kk) = some (.ldImm x kk) ∧
    ∃ t, exec (.ldImm x kk) s = .next t ∧ t.v[x] = kk ∧ t.pc = s.pc + 2 ∧ Unchanged { regs := [x] } s t

/-- R112: `7xkk` wraps and writes no carry; after `6xkk` with the same byte it gives `(kk + kk) mod 256`. -/
def Obligations.AddByteWrapsWithoutFlag : Prop :=
  ∀ (x : Reg) (kk : Byte) (s : State), decodeWord (wordXKK 7 x kk) = some (.addImm x kk) ∧
    (∃ t, exec (.addImm x kk) s = .next t ∧ t.v[x].toNat = (s.v[x].toNat + kk.toNat) % 256 ∧ t.pc = s.pc + 2 ∧
      Unchanged { regs := [x] } s t) ∧
    ∃ t u, exec (.ldImm x kk) s = .next t ∧ exec (.addImm x kk) t = .next u ∧
      u.v[x].toNat = (kk.toNat + kk.toNat) % 256

/-- R113: `8xy0`. -/
def Obligations.CopyRegister : Prop :=
  ∀ (x y : Reg) (s : State), decodeWord (wordXYN 8 x y 0) = some (.ldReg x y) ∧
    ∃ t, exec (.ldReg x y) s = .next t ∧ t.v[x] = s.v[y] ∧ t.pc = s.pc + 2 ∧ Unchanged { regs := [x] } s t

/-- R114 to R116: `8xy1`, `8xy2`, `8xy3`, bit by bit. `VF` is written only as a destination: the spec's decision D9. -/
def Obligations.LogicInstructionsWorkBitwise : Prop :=
  ∀ (x y : Reg) (s : State),
    decodeWord (wordXYN 8 x y 1) = some (.orReg x y) ∧ decodeWord (wordXYN 8 x y 2) = some (.andReg x y) ∧
    decodeWord (wordXYN 8 x y 3) = some (.xorReg x y) ∧
    (∃ t, exec (.orReg x y) s = .next t ∧
      (∀ b < 8, t.v[x].getLsbD b = (s.v[x].getLsbD b || s.v[y].getLsbD b)) ∧ t.pc = s.pc + 2 ∧
      Unchanged { regs := [x] } s t) ∧
    (∃ t, exec (.andReg x y) s = .next t ∧
      (∀ b < 8, t.v[x].getLsbD b = (s.v[x].getLsbD b && s.v[y].getLsbD b)) ∧ t.pc = s.pc + 2 ∧
      Unchanged { regs := [x] } s t) ∧
    ∃ t, exec (.xorReg x y) s = .next t ∧
      (∀ b < 8, t.v[x].getLsbD b = (s.v[x].getLsbD b ^^ s.v[y].getLsbD b)) ∧ t.pc = s.pc + 2 ∧
      Unchanged { regs := [x] } s t

/-- R110, R117: `8xy4`. With `x = 15` the result overwrites the flag: the spec's decision D5. -/
def Obligations.AddRegistersSetsCarry : Prop :=
  ∀ (x y : Reg) (s : State), decodeWord (wordXYN 8 x y 4) = some (.addReg x y) ∧
    ∃ t, exec (.addReg x y) s = .next t ∧ t.v[x].toNat = (s.v[x].toNat + s.v[y].toNat) % 256 ∧
      (x ≠ 15 → t.v[15].toNat = if 255 < s.v[x].toNat + s.v[y].toNat then 1 else 0) ∧ t.pc = s.pc + 2 ∧
      Unchanged { regs := [x, 15] } s t

/-- R110, R118: `8xy5`. With `x = 15` the result overwrites the flag: the spec's decision D5. -/
def Obligations.SubtractSetsNoBorrow : Prop :=
  ∀ (x y : Reg) (s : State), decodeWord (wordXYN 8 x y 5) = some (.subReg x y) ∧
    ∃ t, exec (.subReg x y) s = .next t ∧
      (t.v[x].toNat = if s.v[y].toNat ≤ s.v[x].toNat then s.v[x].toNat - s.v[y].toNat
        else s.v[x].toNat + 256 - s.v[y].toNat) ∧
      (x ≠ 15 → t.v[15].toNat = if s.v[y].toNat ≤ s.v[x].toNat then 1 else 0) ∧ t.pc = s.pc + 2 ∧
      Unchanged { regs := [x, 15] } s t

/-- R110, R119: `8xy6`; `y` is neither read nor written (the spec's decision D9). With `x = 15` the result overwrites the
flag: D5. -/
def Obligations.ShiftRightSetsBitShiftedOut : Prop :=
  ∀ (x y : Reg) (s : State), decodeWord (wordXYN 8 x y 6) = some (.shr x y) ∧
    ∃ t, exec (.shr x y) s = .next t ∧ t.v[x].toNat = s.v[x].toNat / 2 ∧
      (x ≠ 15 → t.v[15].toNat = s.v[x].toNat % 2) ∧ t.pc = s.pc + 2 ∧ Unchanged { regs := [x, 15] } s t

/-- R110, R120: `8xy7`. With `x = 15` the result overwrites the flag: the spec's decision D5. -/
def Obligations.ReverseSubtractSetsNoBorrow : Prop :=
  ∀ (x y : Reg) (s : State), decodeWord (wordXYN 8 x y 7) = some (.subnReg x y) ∧
    ∃ t, exec (.subnReg x y) s = .next t ∧
      (t.v[x].toNat = if s.v[x].toNat ≤ s.v[y].toNat then s.v[y].toNat - s.v[x].toNat
        else s.v[y].toNat + 256 - s.v[x].toNat) ∧
      (x ≠ 15 → t.v[15].toNat = if s.v[x].toNat ≤ s.v[y].toNat then 1 else 0) ∧ t.pc = s.pc + 2 ∧
      Unchanged { regs := [x, 15] } s t

/-- R110, R121: `8xyE`; `y` is neither read nor written (the spec's decision D9). With `x = 15` the result overwrites the
flag: D5. -/
def Obligations.ShiftLeftSetsBitShiftedOut : Prop :=
  ∀ (x y : Reg) (s : State), decodeWord (wordXYN 8 x y 0xE) = some (.shl x y) ∧
    ∃ t, exec (.shl x y) s = .next t ∧ t.v[x].toNat = s.v[x].toNat * 2 % 256 ∧
      (x ≠ 15 → t.v[15].toNat = s.v[x].toNat / 128) ∧ t.pc = s.pc + 2 ∧ Unchanged { regs := [x, 15] } s t

/-- R122: `Cxkk` ANDs a drawn byte with `kk`, so the result is a submask of `kk`. That draws come from `randomByte`, one
index further each time, is the model's form of a free value (log 1). -/
def Obligations.RandomByteIsMasked : Prop :=
  ∀ (x : Reg) (kk : Byte) (s : State), decodeWord (wordXKK 0xC x kk) = some (.rnd x kk) ∧
    ∃ t, exec (.rnd x kk) s = .next t ∧ t.v[x] = randomByte s.draws &&& kk ∧ t.v[x] &&& ~~~kk = 0 ∧
      t.draws = s.draws + 1 ∧ t.pc = s.pc + 2 ∧ Unchanged { regs := [x], draws := true } s t

/-! ### Index register and memory -/

/-- R131: `Annn`. -/
def Obligations.LoadIndexRegister : Prop :=
  ∀ (nnn : Addr) (s : State), decodeWord (wordNNN 0xA nnn) = some (.ldI nnn) ∧
    ∃ t, exec (.ldI nnn) s = .next t ∧ t.i.toNat = nnn.toNat ∧ t.pc = s.pc + 2 ∧ Unchanged { i := true } s t

/-- R132: `Fx1E` is a 16-bit add without mask or flag. That it wraps modulo 65536 is the spec's decision D8. -/
def Obligations.AddToIndexWrapsAt16Bits : Prop :=
  ∀ (x : Reg) (s : State), decodeWord (wordX 0xF x 0x1E) = some (.addI x) ∧
    ∃ t, exec (.addI x) s = .next t ∧ t.i.toNat = (s.i.toNat + s.v[x].toNat) % 65536 ∧ t.pc = s.pc + 2 ∧
      Unchanged { i := true } s t

/-- R133: `Fx29` points `I` at `FONT_BASE + 5 * V[x]`, the whole byte used. `fontBase` is a constant without a value (the
spec's decision D6, log 4). -/
def Obligations.FontPointerIsFiveTimesByte : Prop :=
  ∀ (x : Reg) (s : State), decodeWord (wordX 0xF x 0x29) = some (.ldFont x) ∧
    ∃ t, exec (.ldFont x) s = .next t ∧ t.i.toNat = (fontBase.toNat + 5 * s.v[x].toNat) % 65536 ∧ t.pc = s.pc + 2 ∧
      Unchanged { i := true } s t

/-- R134: `Fx33` stores the three decimal digits at `I`; past address 4095 it faults and stores nothing (the spec's decisions
D10 and D23). -/
def Obligations.DecimalDigitsAreStored : Prop :=
  ∀ (x : Reg) (s : State), s.memory.wf → decodeWord (wordX 0xF x 0x33) = some (.ldBcd x) ∧
    (s.i.toNat + 2 ≤ 4095 →
      ∃ t, exec (.ldBcd x) s = .next t ∧ (t.memory.read s.i.toNat).toNat = s.v[x].toNat / 100 ∧
        (t.memory.read (s.i.toNat + 1)).toNat = s.v[x].toNat / 10 % 10 ∧
        (t.memory.read (s.i.toNat + 2)).toNat = s.v[x].toNat % 10 ∧ t.pc = s.pc + 2 ∧
        Unchanged { bytes := List.range' s.i.toNat 3 } s t) ∧
    (4095 < s.i.toNat + 2 →
      exec (.ldBcd x) s =
        .next (s.faulted .boundsMemWrite (some (wordX 0xF x 0x33)) (if s.i.toNat ≤ 4095 then 4096 else s.i.toNat)))

/-- R135: `Fx55` stores `V[0]` to `V[x]` at `I`, which stays (the spec's decision D9); past address 4095 it faults and stores
nothing (D10, D23). -/
def Obligations.RegisterGroupIsStored : Prop :=
  ∀ (x : Reg) (s : State), s.memory.wf → decodeWord (wordX 0xF x 0x55) = some (.storeRegs x) ∧
    (s.i.toNat + x.val ≤ 4095 →
      ∃ t, exec (.storeRegs x) s = .next t ∧ (∀ k : Reg, k ≤ x → t.memory.read (s.i.toNat + k.val) = s.v[k]) ∧
        t.pc = s.pc + 2 ∧ Unchanged { bytes := List.range' s.i.toNat (x.val + 1) } s t) ∧
    (4095 < s.i.toNat + x.val →
      exec (.storeRegs x) s =
        .next (s.faulted .boundsMemWrite (some (wordX 0xF x 0x55)) (if s.i.toNat ≤ 4095 then 4096 else s.i.toNat)))

/-- R136: `Fx65` loads `V[0]` to `V[x]` from `I`, which stays (the spec's decision D9); past address 4095 it faults and loads
nothing (D10, D23). -/
def Obligations.RegisterGroupIsLoaded : Prop :=
  ∀ (x : Reg) (s : State), decodeWord (wordX 0xF x 0x65) = some (.loadRegs x) ∧
    (s.i.toNat + x.val ≤ 4095 →
      ∃ t, exec (.loadRegs x) s = .next t ∧ (∀ k : Reg, k ≤ x → t.v[k] = s.memory.read (s.i.toNat + k.val)) ∧
        t.pc = s.pc + 2 ∧ Unchanged { regs := (List.finRange 16).filter (· ≤ x) } s t) ∧
    (4095 < s.i.toNat + x.val →
      exec (.loadRegs x) s =
        .next (s.faulted .boundsMemRead (some (wordX 0xF x 0x65)) (if s.i.toNat ≤ 4095 then 4096 else s.i.toNat)))

/-- R136: `Fx55` followed by `Fx65` with the same `x` and `I` restores the registers, whatever happened to them between. -/
def Obligations.StoreThenLoadRestoresRegisters : Prop :=
  ∀ (x : Reg) (s : State), s.memory.wf → s.i.toNat + x.val ≤ 4095 →
    ∃ t, exec (.storeRegs x) s = .next t ∧
      ∀ g : Vector Byte 16, ∃ u, exec (.loadRegs x) { t with v := g } = .next u ∧
        (∀ k : Reg, k ≤ x → u.v[k] = s.v[k]) ∧ ∀ k : Reg, x < k → u.v[k] = g[k]

/-- R143 item 5: drawing the same sprite twice at the same place restores the buffer, and the second draw collides when a 1
bit landed on a cell that was off. -/
def Obligations.DrawingTwiceRestoresDisplay : Prop :=
  ∀ (x y : Reg) (n : Nibble) (s : State), (n.toNat = 0 ∨ s.i.toNat + n.toNat ≤ 4096) →
    ∃ t, exec (.drw x y n) s = .next t ∧
      (t.v[x] = s.v[x] → t.v[y] = s.v[y] →
        ∃ u, exec (.drw x y n) t = .next u ∧ u.pix = s.pix ∧
          ((∃ (r : Fin 32) (c : Fin 64), SpriteCovers s x y n r c ∧ s.pix[r][c] = false) → u.v[15] = 1))

/-! ### Timer and key instructions -/

/-- R150: `Fx07`. -/
def Obligations.DelayTimerIsRead : Prop :=
  ∀ (x : Reg) (s : State), decodeWord (wordX 0xF x 0x07) = some (.ldVxDt x) ∧
    ∃ t, exec (.ldVxDt x) s = .next t ∧ t.v[x] = s.dt ∧ t.pc = s.pc + 2 ∧ Unchanged { regs := [x] } s t

/-- R151: `Fx0A` takes the least pressed key; with none pressed no state changes and `PC` stays (decision D25, settled by the
source). -/
def Obligations.KeyWaitTakesLeastKey : Prop :=
  ∀ (x : Reg) (s : State), decodeWord (wordX 0xF x 0x0A) = some (.ldVxKey x) ∧
    (∀ k : Fin 16, s.key[k] = true → (∀ j : Fin 16, j < k → s.key[j] = false) →
      ∃ t, exec (.ldVxKey x) s = .next t ∧ t.v[x].toNat = k.val ∧ t.pc = s.pc + 2 ∧ Unchanged { regs := [x] } s t) ∧
    ((∀ k : Fin 16, s.key[k] = false) → exec (.ldVxKey x) s = .next s)

/-- R152, R153: `Fx15` and `Fx18`; any byte may be written. R164, R177: the host hears the tone while `ST > 0`. -/
def Obligations.TimersAreWritten : Prop :=
  ∀ (x : Reg) (s : State),
    decodeWord (wordX 0xF x 0x15) = some (.ldDtVx x) ∧ decodeWord (wordX 0xF x 0x18) = some (.ldStVx x) ∧
    (∃ t, exec (.ldDtVx x) s = .next t ∧ t.dt = s.v[x] ∧ t.pc = s.pc + 2 ∧ Unchanged { dt := true } s t) ∧
    ∃ t, exec (.ldStVx x) s = .next t ∧ t.st = s.v[x] ∧ t.pc = s.pc + 2 ∧
      (t.readSound = true ↔ 0 < s.v[x].toNat) ∧ Unchanged { st := true } s t

/-! ### The timer engine and the host -/

/-- R160: `Tick(k)` lowers both timers by `k`, floored at 0, and changes nothing else; ticks add up (the shape of the
operation is the spec's decision D24). -/
def Obligations.TickLowersBothTimers : Prop :=
  (∀ (s : State) (k : Nat), s.halt = .running → nextOperation s = .tick k →
    ∃ t, step s = .next t ∧ t.dt.toNat = s.dt.toNat - min s.dt.toNat k ∧ t.st.toNat = s.st.toNat - min s.st.toNat k ∧
      t.pc = s.pc ∧ Unchanged { dt := true, st := true } s.takeOperation t) ∧
  (∀ s : State, s.tick 0 = s) ∧
  ∀ (s : State) (a b : Nat), (s.tick a).tick b = s.tick (a + b)

/-- R168: `SetKey(k, b)` writes one entry of the latch. -/
def Obligations.SetKeyWritesOneEntry : Prop :=
  ∀ (s : State) (k : Fin 16) (b : Bool), s.halt = .running → nextOperation s = .setKey k b →
    ∃ t, step s = .next t ∧ t.key[k] = b ∧ (∀ j : Fin 16, j ≠ k → t.key[j] = s.key[j]) ∧ t.pc = s.pc ∧
      Unchanged { key := true } s.takeOperation t

/-- R171: `Load` writes the image from 0x200 and leaves all other memory; an image longer than 3584 bytes is a load error
with nothing written. -/
def Obligations.LoadWritesImageFrom200 : Prop :=
  ∀ (image : List Byte) (s : State), s.memory.wf →
    (image.length ≤ 3584 →
      ∃ t, loadImage image s = .ok t ∧ (∀ (k : Nat) (h : k < image.length), t.memory.read (0x200 + k) = image[k]) ∧
        t.pc = s.pc ∧ Unchanged { bytes := List.range' 0x200 image.length } s t) ∧
    (3584 < image.length → loadImage image s = .error (.loadError image.length))

/-- R171, R179, R222: the boot sequence is `Reset`, then the font at its address and the image at 0x200, in either order of
the two loads; every byte outside both stays 0. Below 0x200 the order does not matter; where the two overlap, the later one
stands (log 25). An image longer than 3584 bytes is a load error and the machine is not started (R205); a font past address
4095 stops the boot (log 5). That the sequence is one step is the model's choice (logs 6 and 7). -/
def Obligations.BootLoadsFontAndImageInEitherOrder : Prop :=
  (∀ (image font : List Byte) (base : Word) (s : State), s.memory.wf → image.length ≤ 3584 →
    base.toNat + font.length ≤ 0x200 →
    ∃ t, (loadFont base font s).bind (loadImage image) = .ok t ∧ (loadImage image s).bind (loadFont base font) = .ok t) ∧
  (∀ (image : List Byte) (fontFirst : Bool) (s : State), nextOperation s = .boot image fontFirst →
    step s = bootWith fontBase fontData image fontFirst s.takeOperation) ∧
  ∀ (image font : List Byte) (base : Word) (fontFirst : Bool) (s : State),
    (image.length ≤ 3584 → base.toNat + font.length ≤ 4096 →
      ∃ t, bootWith base font image fontFirst s = .next t ∧
        (∀ (k : Nat) (h : k < image.length),
          fontFirst = true ∨ 0x200 + k < base.toNat ∨ base.toNat + font.length ≤ 0x200 + k →
          t.memory.read (0x200 + k) = image[k]) ∧
        (∀ (k : Nat) (h : k < font.length),
          fontFirst = false ∨ base.toNat + k < 0x200 ∨ 0x200 + image.length ≤ base.toNat + k →
          t.memory.read (base.toNat + k) = font[k]) ∧
        (∀ a : Nat, a < 0x200 ∨ 0x200 + image.length ≤ a → a < base.toNat ∨ base.toNat + font.length ≤ a →
          t.memory.read a = 0) ∧
        t.memory.wf ∧ t = { State.reset with memory := t.memory, draws := s.draws, schedule := s.schedule }) ∧
    (3584 < image.length → fontFirst = false ∨ base.toNat + font.length ≤ 4096 →
      bootWith base font image fontFirst s = .fault (.loadError image.length)) ∧
    (4096 < base.toNat + font.length → fontFirst = true ∨ image.length ≤ 3584 →
      bootWith base font image fontFirst s = .fault (.fontOutsideMemory base))

/-! ### Faults -/

/-- R191, R202: a fault an instruction raises writes the halt latch and nothing else, and records the instruction's `PC` and
word (preciseness is the spec's decision D10). -/
def Obligations.InstructionFaultsArePrecise : Prop :=
  ∀ (i : Instr) (s t : State), exec i s = .next t → t.halt ≠ s.halt →
    ∃ cause value, t = s.faulted cause (some (encode i)) value

/-- R191: every instruction answers a next state, and only the instructions the table names can raise a fault, each one kind
(`KeyIndex` among them by the spec's decision D7). -/
def Obligations.OnlyNamedInstructionsFault : Prop :=
  ∀ (i : Instr) (s : State), s.halt = .running →
    ∃ t, exec i s = .next t ∧ ∀ f, t.halt = .halted f → faultCause i = some f.cause

/-! ### Rules of the whole machine -/

/-- R23: how each instruction writes `PC`; a fault leaves it. The popped slot follows the spec's decision D1. -/
def Obligations.ProgramCounterFollowsTable : Prop :=
  ∀ (i : Instr) (s t : State), s.halt = .running → exec i s = .next t →
    (t.halt = .running → t.pc = pcAfter s i) ∧ (t.halt ≠ .running → t.pc = s.pc)

/-- R165: only `00E0` and `Dxyn` change the display, both set `redraw`, and the host never writes a pixel. -/
def Obligations.OnlyClearAndDrawChangeDisplay : Prop :=
  ∀ s t : State, step s = .next t → ¬ ResetIsNext s →
    (t.pix ≠ s.pix → WillExecute s .cls ∨ ∃ x y n, WillExecute s (.drw x y n)) ∧
    (t.halt = .running → (WillExecute s .cls ∨ ∃ x y n, WillExecute s (.drw x y n)) → t.redraw = true)

/-- R32, R40 item 7, R176: `redraw` rises only by `00E0` and `Dxyn` and falls only by `ClearRedraw`, which changes nothing
else, and machine construction. -/
def Obligations.RedrawRisesAndFallsOnlyAsListed : Prop :=
  (∀ s t : State, step s = .next t →
    (s.redraw = false → t.redraw = true → WillExecute s .cls ∨ ∃ x y n, WillExecute s (.drw x y n)) ∧
    (s.redraw = true → t.redraw = false → nextOperation s = .clearRedraw ∨ ResetIsNext s)) ∧
  ∀ s : State, s.halt = .running → nextOperation s = .clearRedraw →
    step s = .next { s.takeOperation with redraw := false }

/-- R29, R32: no instruction reads `ST` or `redraw`: with other values of both, an instruction does the same to everything
else. -/
def Obligations.NoInstructionReadsSoundTimerOrRedraw : Prop :=
  ∀ (i : Instr) (s t : State) (b : Byte) (c : Bool), exec i s = .next t →
    ∃ u, exec i { s with st := b, redraw := c } = .next u ∧ { u with st := t.st, redraw := t.redraw } = t

/-- R50, R51: after loading, only `Fx33` and `Fx55` change memory, and only at the bytes from `I` they store to. -/
def Obligations.OnlyStoresChangeMemory : Prop :=
  ∀ (s t : State) (a : Nat), step s = .next t → ¬ ResetIsNext s → t.memory.read a ≠ s.memory.read a →
    ∃ x : Reg, (WillExecute s (.ldBcd x) ∧ s.i.toNat ≤ a ∧ a ≤ s.i.toNat + 2) ∨
      (WillExecute s (.storeRegs x) ∧ s.i.toNat ≤ a ∧ a ≤ s.i.toNat + x.val)

/-- R40 item 6: `DT` changes only by `Fx15` and `Tick`, `ST` only by `Fx18` and `Tick`, and a tick lowers them. -/
def Obligations.TimersChangeOnlyAsListed : Prop :=
  ∀ s t : State, step s = .next t → ¬ ResetIsNext s →
    (t.dt ≠ s.dt → (∃ x, WillExecute s (.ldDtVx x)) ∨ ((∃ k, nextOperation s = .tick k) ∧ t.dt.toNat < s.dt.toNat)) ∧
    (t.st ≠ s.st → (∃ x, WillExecute s (.ldStVx x)) ∨ ((∃ k, nextOperation s = .tick k) ∧ t.st.toNat < s.st.toNat))

/-- R25, R26, R95: only `2nnn` writes a stack slot, the one at `SP`, and only `2nnn` and `00EE` move `SP`, by one. -/
def Obligations.OnlyCallAndReturnChangeStack : Prop :=
  ∀ s t : State, step s = .next t → ¬ ResetIsNext s →
    (∀ k : Fin 16, t.stack[k] ≠ s.stack[k] → k.val = s.sp.val ∧ ∃ nnn, WillExecute s (.call nnn)) ∧
    (t.sp ≠ s.sp → ((∃ nnn, WillExecute s (.call nnn)) ∧ t.sp.val = s.sp.val + 1) ∨
      (WillExecute s .ret ∧ t.sp.val + 1 = s.sp.val))

/-- R27, R130: `I` changes only by `Annn`, `Fx1E` and `Fx29`: no memory access moves it. -/
def Obligations.OnlyIndexInstructionsChangeI : Prop :=
  ∀ s t : State, step s = .next t → ¬ ResetIsNext s → t.i ≠ s.i →
    (∃ nnn, WillExecute s (.ldI nnn)) ∨ ∃ x, WillExecute s (.addI x) ∨ WillExecute s (.ldFont x)

/-! ### Reset and the invariant -/

/-- R39, R220: the state after reset. The stack slots and the latch are the spec's decisions D1 and D20. -/
def Obligations.ResetLeavesStatedValues : Prop :=
  (∀ r : Reg, State.reset.v[r] = 0) ∧ State.reset.i = 0 ∧ State.reset.pc = 0x200 ∧ State.reset.sp.val = 0 ∧
  (∀ k : Fin 16, State.reset.stack[k] = 0) ∧ State.reset.dt = 0 ∧ State.reset.st = 0 ∧
  (∀ k : Fin 16, State.reset.key[k] = false) ∧ (∀ (r : Fin 32) (c : Fin 64), State.reset.pix[r][c] = false) ∧
  State.reset.redraw = false ∧ (∀ a : Nat, State.reset.memory.read a = 0) ∧ State.reset.halt = .running

/-- The invariant holds at reset. -/
def Obligations.InvariantHoldsAtReset : Prop := State.reset.Inv

/-- R24, R40 item 4: from every state that meets the invariant, every step, of the CPU, the timer engine or the host, leads to
a state that meets it: memory canonical, `PC` at most 0x10FE, every live return address 2 to 4096. -/
def Obligations.EveryStepKeepsInvariant : Prop :=
  ∀ s t : State, s.Inv → step s = .next t → t.Inv
end

