-- ==== Sys2Proof/Laws/Decode.lean ====
section
/-! SUPPORT. The fields of a word in each format of spec/30_encoding.md R72, by their numbers, and the two directions between
the encoder's words and numbers. -/

namespace Sys2Proof

theorem fieldT_toNat (op : Word) : (fieldT op).toNat = op.toNat / 4096 := by
  simp [fieldT, Nat.shiftRight_eq_div_pow]
  omega

theorem fieldX_val (op : Word) : (fieldX op).val = op.toNat / 256 % 16 := by
  simp [fieldX, Nat.shiftRight_eq_div_pow]

theorem fieldY_val (op : Word) : (fieldY op).val = op.toNat / 16 % 16 := by
  simp [fieldY, Nat.shiftRight_eq_div_pow]

theorem fieldN_toNat (op : Word) : (fieldN op).toNat = op.toNat % 16 := by
  simp [fieldN]

theorem fieldKK_toNat (op : Word) : (fieldKK op).toNat = op.toNat % 256 := by
  simp [fieldKK]

theorem fieldNNN_toNat (op : Word) : (fieldNNN op).toNat = op.toNat % 4096 := by
  simp [fieldNNN]

theorem toNat_append_nat {n m : Nat} (a : BitVec n) (b : BitVec m) : (a ++ b).toNat = a.toNat * 2 ^ m + b.toNat := by
  rw [BitVec.toNat_append, Nat.shiftLeft_eq, Nat.mul_comm, ← Nat.two_pow_add_eq_or_of_lt b.isLt]

@[simp] theorem regField_toNat (r : Reg) : (regField r).toNat = r.val := rfl

theorem formatNNN_toNat (t : Nibble) (nnn : Addr) : (formatNNN t nnn).toNat = t.toNat * 4096 + nnn.toNat := by
  simp only [formatNNN, toNat_append_nat]
  omega

theorem formatXKK_toNat (t : Nibble) (x : Reg) (kk : Byte) :
    (formatXKK t x kk).toNat = t.toNat * 4096 + x.val * 256 + kk.toNat := by
  simp only [formatXKK, toNat_append_nat, regField_toNat]
  omega

theorem formatXYN_toNat (t : Nibble) (x y : Reg) (n : Nibble) :
    (formatXYN t x y n).toNat = t.toNat * 4096 + x.val * 256 + y.val * 16 + n.toNat := by
  simp only [formatXYN, toNat_append_nat, regField_toNat]
  omega

theorem wordOfBytes_toNat (hi lo : Byte) : (wordOfBytes hi lo).toNat = hi.toNat * 256 + lo.toNat := by
  simp only [wordOfBytes, toNat_append_nat]
  omega

/-- A word is its two bytes, the high one first. -/
theorem wordOfBytes_bytes (op : Word) : wordOfBytes (highByte op) (lowByte op) = op := by
  apply BitVec.eq_of_toNat_eq
  simp [wordOfBytes_toNat, highByte, lowByte, Nat.shiftRight_eq_div_pow]
  omega

/-- Decoding two bytes is decoding their word. -/
theorem decode_two (hi lo : Byte) (i : Instr) : decode [hi, lo] = .ok (i, []) ↔ decodeWord (wordOfBytes hi lo) = some i := by
  simp only [decode]
  split <;> simp_all

/-! ### The fields of a formatted word -/

@[simp] theorem fieldT_formatNNN (t : Nibble) (nnn : Addr) : fieldT (formatNNN t nnn) = t := by
  apply BitVec.eq_of_toNat_eq
  rw [fieldT_toNat, formatNNN_toNat]
  omega

@[simp] theorem fieldT_formatXKK (t : Nibble) (x : Reg) (kk : Byte) : fieldT (formatXKK t x kk) = t := by
  apply BitVec.eq_of_toNat_eq
  rw [fieldT_toNat, formatXKK_toNat]
  omega

@[simp] theorem fieldT_formatXYN (t : Nibble) (x y : Reg) (n : Nibble) : fieldT (formatXYN t x y n) = t := by
  apply BitVec.eq_of_toNat_eq
  rw [fieldT_toNat, formatXYN_toNat]
  omega

@[simp] theorem fieldNNN_formatNNN (t : Nibble) (nnn : Addr) : fieldNNN (formatNNN t nnn) = nnn := by
  apply BitVec.eq_of_toNat_eq
  rw [fieldNNN_toNat, formatNNN_toNat]
  omega

@[simp] theorem fieldX_formatXKK (t : Nibble) (x : Reg) (kk : Byte) : fieldX (formatXKK t x kk) = x := by
  apply Fin.ext
  rw [fieldX_val, formatXKK_toNat]
  omega

@[simp] theorem fieldKK_formatXKK (t : Nibble) (x : Reg) (kk : Byte) : fieldKK (formatXKK t x kk) = kk := by
  apply BitVec.eq_of_toNat_eq
  rw [fieldKK_toNat, formatXKK_toNat]
  omega

@[simp] theorem fieldX_formatXYN (t : Nibble) (x y : Reg) (n : Nibble) : fieldX (formatXYN t x y n) = x := by
  apply Fin.ext
  rw [fieldX_val, formatXYN_toNat]
  omega

@[simp] theorem fieldY_formatXYN (t : Nibble) (x y : Reg) (n : Nibble) : fieldY (formatXYN t x y n) = y := by
  apply Fin.ext
  rw [fieldY_val, formatXYN_toNat]
  omega

@[simp] theorem fieldN_formatXYN (t : Nibble) (x y : Reg) (n : Nibble) : fieldN (formatXYN t x y n) = n := by
  apply BitVec.eq_of_toNat_eq
  rw [fieldN_toNat, formatXYN_toNat]
  omega

/-! ### The numeric words are the encoder's -/

theorem wordNNN_eq (t : Nat) (nnn : Addr) : Machine.wordNNN t nnn = formatNNN (BitVec.ofNat 4 t) nnn := by
  apply BitVec.eq_of_toNat_eq
  simp [formatNNN_toNat, Machine.wordNNN]
  omega

theorem wordXKK_eq (t : Nat) (x : Reg) (kk : Byte) : Machine.wordXKK t x kk = formatXKK (BitVec.ofNat 4 t) x kk := by
  apply BitVec.eq_of_toNat_eq
  simp [formatXKK_toNat, Machine.wordXKK]
  omega

theorem wordX_eq (t : Nat) (x : Reg) (l : Nat) (hl : l < 256) : Machine.wordX t x l =
    formatXKK (BitVec.ofNat 4 t) x (BitVec.ofNat 8 l) := by
  apply BitVec.eq_of_toNat_eq
  simp [formatXKK_toNat, Machine.wordX]
  omega

theorem wordXYN_eq (t : Nat) (x y : Reg) (l : Nat) (hl : l < 16) : Machine.wordXYN t x y l =
    formatXYN (BitVec.ofNat 4 t) x y (BitVec.ofNat 4 l) := by
  apply BitVec.eq_of_toNat_eq
  simp [formatXYN_toNat, Machine.wordXYN]
  omega

/-! ### Masks -/

/-- The mask of formats `NNN`, `XKK` and `XYN` (R73). -/
theorem and_high (op : Word) : (op &&& 0xF000#16).toNat = op.toNat / 4096 * 4096 := by
  have h : op &&& 0xF000#16 = (op >>> 12) <<< 12 := by
    ext i hi
    interval_cases i <;> simp
  rw [h, BitVec.toNat_shiftLeft, BitVec.toNat_ushiftRight, Nat.shiftLeft_eq, Nat.shiftRight_eq_div_pow]
  omega

/-- The masks of formats `XY` and `X` (R73). -/
theorem and_mask (op : Word) (k : Nat) (m : Word) (hk : k = 4 ∨ k = 8)
    (hm : m = BitVec.ofNat 16 (0xF000 + (2 ^ k - 1))) :
    (op &&& m).toNat = op.toNat / 4096 * 4096 + op.toNat % 2 ^ k := by
  have h : op &&& m = (op &&& 0xF000#16) ||| (op &&& BitVec.ofNat 16 (2 ^ k - 1)) := by
    subst hm
    rcases hk with rfl | rfl <;> ext i hi <;> interval_cases i <;> simp
  have hz : (op &&& 0xF000#16) &&& (op &&& BitVec.ofNat 16 (2 ^ k - 1)) = 0#16 := by
    rcases hk with rfl | rfl <;> ext i hi <;> interval_cases i <;> simp
  have hl : (op &&& BitVec.ofNat 16 (2 ^ k - 1)).toNat = op.toNat % 2 ^ k := by
    rw [BitVec.toNat_and, BitVec.toNat_ofNat, Nat.mod_eq_of_lt (by rcases hk with rfl | rfl <;> omega)]
    exact Nat.and_two_pow_sub_one_eq_mod ..
  rw [h, ← BitVec.add_eq_or_of_and_eq_zero _ _ hz, BitVec.toNat_add, and_high, hl]
  rcases hk with rfl | rfl <;> omega

end Sys2Proof
end

