-- ==== Sys2Proof/Laws/Memory.lean ====
section
/-! SUPPORT. The laws of the memory: reads after writes, and the canonical form kept by every memory operation. -/

namespace Sys2Proof.Machine

@[simp] theorem Memory.read_nil (a : Nat) : Memory.read [] a = 0 := rfl

theorem Memory.wf_nil : Memory.wf [] := ⟨List.Pairwise.nil, by simp⟩

theorem Memory.wf_tail {c : Host.Cell} {m : Memory} (h : Memory.wf (c :: m)) : Memory.wf m :=
  ⟨(List.pairwise_cons.1 h.1).2, fun d hd => h.2 d (List.mem_cons_of_mem _ hd)⟩

/-- An address below every listed one reads the reset value. -/
theorem Memory.read_eq_zero {m : Memory} {a : Nat} (h : ∀ c ∈ m, a < c.1) : m.read a = 0 := by
  induction m with
  | nil => rfl
  | cons c m ih =>
    have hc := h c (by simp)
    rw [Memory.read, if_neg (by omega), ih fun d hd => h d (by simp [hd])]

theorem Memory.mem_write {m : Memory} {a : Nat} {b : Byte} {c : Host.Cell} (h : c ∈ m.write a b) :
    c ∈ m ∨ (c = (a, b) ∧ b ≠ 0) := by
  induction m with
  | nil => simp only [Memory.write] at h; split at h <;> simp_all
  | cons d m ih =>
    simp only [Memory.write] at h
    split at h
    · split at h <;> simp_all; tauto
    · split at h
      · split at h <;> simp_all; tauto
      · rcases List.mem_cons.1 h with h | h
        · simp [h]
        · rcases ih h with h | h
          · exact .inl (List.mem_cons_of_mem _ h)
          · exact .inr h

/-- A write inside the address space keeps the canonical form. -/
theorem Memory.wf_write {m : Memory} {a : Nat} {b : Byte} (h : m.wf) (ha : a < memSize) : (m.write a b).wf := by
  refine ⟨?_, fun c hc => ?_⟩
  · induction m with
    | nil => simp only [Memory.write]; split <;> simp
    | cons d m ih =>
      obtain ⟨k, v⟩ := d
      have hp := List.pairwise_cons.1 h.1
      simp only [Memory.write]
      split
      · split
        · exact h.1
        · refine List.pairwise_cons.2 ⟨fun c hc => ?_, h.1⟩
          rcases List.mem_cons.1 hc with rfl | hc
          · assumption
          · have := hp.1 c hc
            simp only at this ⊢
            omega
      · split
        · split
          · exact hp.2
          · subst a
            exact List.pairwise_cons.2 ⟨hp.1, hp.2⟩
        · refine List.pairwise_cons.2 ⟨fun c hc => ?_, ih (Memory.wf_tail h)⟩
          rcases Memory.mem_write hc with hc | hc
          · exact hp.1 c hc
          · simp only [hc.1]
            omega
  · rcases Memory.mem_write hc with hc | ⟨rfl, hb⟩
    · exact h.2 c hc
    · exact ⟨hb, ha⟩

/-- A write leaves every other address alone, whatever the memory. -/
theorem Memory.read_write_other {m : Memory} {a k : Nat} (b : Byte) (h : k ≠ a) : (m.write a b).read k = m.read k := by
  induction m with
  | nil => simp only [Memory.write]; split <;> simp [Memory.read, Ne.symm h]
  | cons d m ih =>
    obtain ⟨j, v⟩ := d
    simp only [Memory.write]
    split
    · split
      · rfl
      · rw [Memory.read, if_neg (Ne.symm h)]
    · split
      · split
        · rw [Memory.read, if_neg (by omega)]
        · rw [Memory.read, if_neg (Ne.symm h), Memory.read, if_neg (by omega)]
      · simp only [Memory.read, ih]

/-- A read after a write to the same address gives the byte written. -/
theorem Memory.read_write_same {m : Memory} (h : m.wf) (a : Nat) (b : Byte) : (m.write a b).read a = b := by
  induction m with
  | nil => simp only [Memory.write]; split <;> simp_all [Memory.read]
  | cons d m ih =>
    obtain ⟨j, v⟩ := d
    have hp := (List.pairwise_cons.1 h.1).1
    simp only [Memory.write]
    split
    · split
      · rename_i hlt hb
        rw [hb, Memory.read_eq_zero]
        intro c hc
        rcases List.mem_cons.1 hc with rfl | hc
        · exact hlt
        · have := hp c hc
          simp only at this
          omega
      · simp [Memory.read]
    · split
      · split
        · rename_i _ he hb
          rw [hb, Memory.read_eq_zero]
          intro c hc
          rw [he]
          exact hp c hc
        · simp [Memory.read]
      · rw [Memory.read, if_neg (by omega), ih (Memory.wf_tail h)]

/-- Two canonical memories that read alike are equal. -/
theorem Memory.eq_of_read {m n : Memory} (hm : m.wf) (hn : n.wf) (h : ∀ a, m.read a = n.read a) : m = n := by
  have key : ∀ {c : Host.Cell} {m : Memory}, Memory.wf (c :: m) → ∀ a, a < c.1 → Memory.read (c :: m) a = 0 := by
    intro c m hw a ha
    refine Memory.read_eq_zero fun d hd => ?_
    rcases List.mem_cons.1 hd with rfl | hd
    · exact ha
    · exact Nat.lt_trans ha ((List.pairwise_cons.1 hw.1).1 d hd)
  induction m generalizing n with
  | nil =>
    cases n with
    | nil => rfl
    | cons d n => exact absurd (by simpa [Memory.read] using (h d.1).symm) (hn.2 d (by simp)).1
  | cons c m ih =>
    cases n with
    | nil => exact absurd (by simpa [Memory.read] using h c.1) (hm.2 c (by simp)).1
    | cons d n =>
      have hc := (hm.2 c (by simp)).1
      have hd := (hn.2 d (by simp)).1
      have hcd : c.1 = d.1 := by
        rcases Nat.lt_trichotomy c.1 d.1 with hlt | he | hlt
        · have := h c.1
          rw [key hn _ hlt] at this
          simp [Memory.read] at this
          exact absurd this hc
        · exact he
        · have := h d.1
          rw [key hm _ hlt] at this
          simp [Memory.read] at this
          exact absurd this.symm hd
      have hv : c.2 = d.2 := by simpa [Memory.read, hcd] using h c.1
      have hcons : c = d := Prod.ext hcd hv
      subst hcons
      congr 1
      refine ih (Memory.wf_tail hm) (Memory.wf_tail hn) fun a => ?_
      by_cases ha : c.1 = a
      · rw [Memory.read_eq_zero, Memory.read_eq_zero]
        · exact fun e he => ha ▸ (List.pairwise_cons.1 hn.1).1 e he
        · exact fun e he => ha ▸ (List.pairwise_cons.1 hm.1).1 e he
      · simpa [Memory.read, ha] using h a

/-! ### Byte sequences -/

theorem wf_writeBytes {m : Memory} {a : Nat} {bs : List Byte} (h : m.wf) (ha : a + bs.length ≤ memSize) :
    (writeBytes m a bs).wf := by
  induction bs generalizing m a with
  | nil => exact h
  | cons b bs ih =>
    simp only [List.length_cons] at ha
    exact ih (Memory.wf_write h (by omega)) (by omega)

/-- Stores leave every address outside them alone, whatever the memory. -/
theorem read_writeBytes_outside {m : Memory} {a k : Nat} {bs : List Byte} (h : k < a ∨ a + bs.length ≤ k) :
    (writeBytes m a bs).read k = m.read k := by
  induction bs generalizing m a with
  | nil => rfl
  | cons b bs ih =>
    simp only [List.length_cons] at h
    rw [writeBytes, ih (by omega), Memory.read_write_other _ (by omega)]

/-- Stores put the bytes at ascending addresses. -/
theorem read_writeBytes_inside {m : Memory} {a k : Nat} {bs : List Byte} (h : m.wf) (ha : a + bs.length ≤ memSize)
    (hk : k < bs.length) : (writeBytes m a bs).read (a + k) = bs[k] := by
  induction bs generalizing m a k with
  | nil => simp at hk
  | cons b bs ih =>
    simp only [List.length_cons] at ha hk
    cases k with
    | zero => simp [writeBytes, read_writeBytes_outside, Memory.read_write_same h]
    | succ k =>
      have := @ih (m.write a b) (a + 1) k (Memory.wf_write h (by omega)) (by omega) (by omega)
      simpa [writeBytes, Nat.add_assoc, Nat.add_comm 1 k] using this

@[simp] theorem length_readBytes (m : Memory) (a n : Nat) : (readBytes m a n).length = n := by
  induction n generalizing a with
  | zero => rfl
  | succ n ih => simp [readBytes, ih]

theorem getElem_readBytes (m : Memory) (a n k : Nat) (h : k < (readBytes m a n).length) :
    (readBytes m a n)[k] = m.read (a + k) := by
  induction n generalizing a k with
  | zero => simp at h
  | succ n ih =>
    cases k with
    | zero => rfl
    | succ k => simp [readBytes, ih, Nat.add_assoc, Nat.add_comm 1 k]

end Sys2Proof.Machine
end

