-- ==== Sys2Proof/Laws/State.lean ====
section
/-! SUPPORT. One lemma per field per named update of the state, each true by unfolding the update, so that no later proof
unfolds one. -/

namespace Sys2Proof.Machine

@[simp] theorem State.setV_v (s : State) (r : Reg) (b : Byte) : (s.setV r b).v = s.v.set r b := rfl
@[simp] theorem State.setV_i (s : State) (r : Reg) (b : Byte) : (s.setV r b).i = s.i := rfl
@[simp] theorem State.setV_pc (s : State) (r : Reg) (b : Byte) : (s.setV r b).pc = s.pc := rfl
@[simp] theorem State.setV_sp (s : State) (r : Reg) (b : Byte) : (s.setV r b).sp = s.sp := rfl
@[simp] theorem State.setV_stack (s : State) (r : Reg) (b : Byte) : (s.setV r b).stack = s.stack := rfl
@[simp] theorem State.setV_dt (s : State) (r : Reg) (b : Byte) : (s.setV r b).dt = s.dt := rfl
@[simp] theorem State.setV_st (s : State) (r : Reg) (b : Byte) : (s.setV r b).st = s.st := rfl
@[simp] theorem State.setV_key (s : State) (r : Reg) (b : Byte) : (s.setV r b).key = s.key := rfl
@[simp] theorem State.setV_pix (s : State) (r : Reg) (b : Byte) : (s.setV r b).pix = s.pix := rfl
@[simp] theorem State.setV_redraw (s : State) (r : Reg) (b : Byte) : (s.setV r b).redraw = s.redraw := rfl
@[simp] theorem State.setV_memory (s : State) (r : Reg) (b : Byte) : (s.setV r b).memory = s.memory := rfl
@[simp] theorem State.setV_halt (s : State) (r : Reg) (b : Byte) : (s.setV r b).halt = s.halt := rfl
@[simp] theorem State.setV_draws (s : State) (r : Reg) (b : Byte) : (s.setV r b).draws = s.draws := rfl
@[simp] theorem State.setV_schedule (s : State) (r : Reg) (b : Byte) : (s.setV r b).schedule = s.schedule := rfl

@[simp] theorem State.setGroup_v (s : State) (g : Vector Byte 16) : (s.setGroup g).v = g := rfl
@[simp] theorem State.setGroup_i (s : State) (g : Vector Byte 16) : (s.setGroup g).i = s.i := rfl
@[simp] theorem State.setGroup_pc (s : State) (g : Vector Byte 16) : (s.setGroup g).pc = s.pc := rfl
@[simp] theorem State.setGroup_sp (s : State) (g : Vector Byte 16) : (s.setGroup g).sp = s.sp := rfl
@[simp] theorem State.setGroup_stack (s : State) (g : Vector Byte 16) : (s.setGroup g).stack = s.stack := rfl
@[simp] theorem State.setGroup_dt (s : State) (g : Vector Byte 16) : (s.setGroup g).dt = s.dt := rfl
@[simp] theorem State.setGroup_st (s : State) (g : Vector Byte 16) : (s.setGroup g).st = s.st := rfl
@[simp] theorem State.setGroup_key (s : State) (g : Vector Byte 16) : (s.setGroup g).key = s.key := rfl
@[simp] theorem State.setGroup_pix (s : State) (g : Vector Byte 16) : (s.setGroup g).pix = s.pix := rfl
@[simp] theorem State.setGroup_redraw (s : State) (g : Vector Byte 16) : (s.setGroup g).redraw = s.redraw := rfl
@[simp] theorem State.setGroup_memory (s : State) (g : Vector Byte 16) : (s.setGroup g).memory = s.memory := rfl
@[simp] theorem State.setGroup_halt (s : State) (g : Vector Byte 16) : (s.setGroup g).halt = s.halt := rfl
@[simp] theorem State.setGroup_draws (s : State) (g : Vector Byte 16) : (s.setGroup g).draws = s.draws := rfl
@[simp] theorem State.setGroup_schedule (s : State) (g : Vector Byte 16) : (s.setGroup g).schedule = s.schedule := rfl

@[simp] theorem State.setFlagThenResult_v (s : State) (x : Reg) (f b : Byte) : (s.setFlagThenResult x f b).v = (s.v.set (15 : Reg) f).set x b := rfl
@[simp] theorem State.setFlagThenResult_i (s : State) (x : Reg) (f b : Byte) : (s.setFlagThenResult x f b).i = s.i := rfl
@[simp] theorem State.setFlagThenResult_pc (s : State) (x : Reg) (f b : Byte) : (s.setFlagThenResult x f b).pc = s.pc := rfl
@[simp] theorem State.setFlagThenResult_sp (s : State) (x : Reg) (f b : Byte) : (s.setFlagThenResult x f b).sp = s.sp := rfl
@[simp] theorem State.setFlagThenResult_stack (s : State) (x : Reg) (f b : Byte) : (s.setFlagThenResult x f b).stack = s.stack := rfl
@[simp] theorem State.setFlagThenResult_dt (s : State) (x : Reg) (f b : Byte) : (s.setFlagThenResult x f b).dt = s.dt := rfl
@[simp] theorem State.setFlagThenResult_st (s : State) (x : Reg) (f b : Byte) : (s.setFlagThenResult x f b).st = s.st := rfl
@[simp] theorem State.setFlagThenResult_key (s : State) (x : Reg) (f b : Byte) : (s.setFlagThenResult x f b).key = s.key := rfl
@[simp] theorem State.setFlagThenResult_pix (s : State) (x : Reg) (f b : Byte) : (s.setFlagThenResult x f b).pix = s.pix := rfl
@[simp] theorem State.setFlagThenResult_redraw (s : State) (x : Reg) (f b : Byte) : (s.setFlagThenResult x f b).redraw = s.redraw := rfl
@[simp] theorem State.setFlagThenResult_memory (s : State) (x : Reg) (f b : Byte) : (s.setFlagThenResult x f b).memory = s.memory := rfl
@[simp] theorem State.setFlagThenResult_halt (s : State) (x : Reg) (f b : Byte) : (s.setFlagThenResult x f b).halt = s.halt := rfl
@[simp] theorem State.setFlagThenResult_draws (s : State) (x : Reg) (f b : Byte) : (s.setFlagThenResult x f b).draws = s.draws := rfl
@[simp] theorem State.setFlagThenResult_schedule (s : State) (x : Reg) (f b : Byte) : (s.setFlagThenResult x f b).schedule = s.schedule := rfl

@[simp] theorem State.setI_v (s : State) (w : Word) : (s.setI w).v = s.v := rfl
@[simp] theorem State.setI_i (s : State) (w : Word) : (s.setI w).i = w := rfl
@[simp] theorem State.setI_pc (s : State) (w : Word) : (s.setI w).pc = s.pc := rfl
@[simp] theorem State.setI_sp (s : State) (w : Word) : (s.setI w).sp = s.sp := rfl
@[simp] theorem State.setI_stack (s : State) (w : Word) : (s.setI w).stack = s.stack := rfl
@[simp] theorem State.setI_dt (s : State) (w : Word) : (s.setI w).dt = s.dt := rfl
@[simp] theorem State.setI_st (s : State) (w : Word) : (s.setI w).st = s.st := rfl
@[simp] theorem State.setI_key (s : State) (w : Word) : (s.setI w).key = s.key := rfl
@[simp] theorem State.setI_pix (s : State) (w : Word) : (s.setI w).pix = s.pix := rfl
@[simp] theorem State.setI_redraw (s : State) (w : Word) : (s.setI w).redraw = s.redraw := rfl
@[simp] theorem State.setI_memory (s : State) (w : Word) : (s.setI w).memory = s.memory := rfl
@[simp] theorem State.setI_halt (s : State) (w : Word) : (s.setI w).halt = s.halt := rfl
@[simp] theorem State.setI_draws (s : State) (w : Word) : (s.setI w).draws = s.draws := rfl
@[simp] theorem State.setI_schedule (s : State) (w : Word) : (s.setI w).schedule = s.schedule := rfl

@[simp] theorem State.setDt_v (s : State) (b : Byte) : (s.setDt b).v = s.v := rfl
@[simp] theorem State.setDt_i (s : State) (b : Byte) : (s.setDt b).i = s.i := rfl
@[simp] theorem State.setDt_pc (s : State) (b : Byte) : (s.setDt b).pc = s.pc := rfl
@[simp] theorem State.setDt_sp (s : State) (b : Byte) : (s.setDt b).sp = s.sp := rfl
@[simp] theorem State.setDt_stack (s : State) (b : Byte) : (s.setDt b).stack = s.stack := rfl
@[simp] theorem State.setDt_dt (s : State) (b : Byte) : (s.setDt b).dt = b := rfl
@[simp] theorem State.setDt_st (s : State) (b : Byte) : (s.setDt b).st = s.st := rfl
@[simp] theorem State.setDt_key (s : State) (b : Byte) : (s.setDt b).key = s.key := rfl
@[simp] theorem State.setDt_pix (s : State) (b : Byte) : (s.setDt b).pix = s.pix := rfl
@[simp] theorem State.setDt_redraw (s : State) (b : Byte) : (s.setDt b).redraw = s.redraw := rfl
@[simp] theorem State.setDt_memory (s : State) (b : Byte) : (s.setDt b).memory = s.memory := rfl
@[simp] theorem State.setDt_halt (s : State) (b : Byte) : (s.setDt b).halt = s.halt := rfl
@[simp] theorem State.setDt_draws (s : State) (b : Byte) : (s.setDt b).draws = s.draws := rfl
@[simp] theorem State.setDt_schedule (s : State) (b : Byte) : (s.setDt b).schedule = s.schedule := rfl

@[simp] theorem State.setSt_v (s : State) (b : Byte) : (s.setSt b).v = s.v := rfl
@[simp] theorem State.setSt_i (s : State) (b : Byte) : (s.setSt b).i = s.i := rfl
@[simp] theorem State.setSt_pc (s : State) (b : Byte) : (s.setSt b).pc = s.pc := rfl
@[simp] theorem State.setSt_sp (s : State) (b : Byte) : (s.setSt b).sp = s.sp := rfl
@[simp] theorem State.setSt_stack (s : State) (b : Byte) : (s.setSt b).stack = s.stack := rfl
@[simp] theorem State.setSt_dt (s : State) (b : Byte) : (s.setSt b).dt = s.dt := rfl
@[simp] theorem State.setSt_st (s : State) (b : Byte) : (s.setSt b).st = b := rfl
@[simp] theorem State.setSt_key (s : State) (b : Byte) : (s.setSt b).key = s.key := rfl
@[simp] theorem State.setSt_pix (s : State) (b : Byte) : (s.setSt b).pix = s.pix := rfl
@[simp] theorem State.setSt_redraw (s : State) (b : Byte) : (s.setSt b).redraw = s.redraw := rfl
@[simp] theorem State.setSt_memory (s : State) (b : Byte) : (s.setSt b).memory = s.memory := rfl
@[simp] theorem State.setSt_halt (s : State) (b : Byte) : (s.setSt b).halt = s.halt := rfl
@[simp] theorem State.setSt_draws (s : State) (b : Byte) : (s.setSt b).draws = s.draws := rfl
@[simp] theorem State.setSt_schedule (s : State) (b : Byte) : (s.setSt b).schedule = s.schedule := rfl

@[simp] theorem State.setMemory_v (s : State) (m : Memory) : (s.setMemory m).v = s.v := rfl
@[simp] theorem State.setMemory_i (s : State) (m : Memory) : (s.setMemory m).i = s.i := rfl
@[simp] theorem State.setMemory_pc (s : State) (m : Memory) : (s.setMemory m).pc = s.pc := rfl
@[simp] theorem State.setMemory_sp (s : State) (m : Memory) : (s.setMemory m).sp = s.sp := rfl
@[simp] theorem State.setMemory_stack (s : State) (m : Memory) : (s.setMemory m).stack = s.stack := rfl
@[simp] theorem State.setMemory_dt (s : State) (m : Memory) : (s.setMemory m).dt = s.dt := rfl
@[simp] theorem State.setMemory_st (s : State) (m : Memory) : (s.setMemory m).st = s.st := rfl
@[simp] theorem State.setMemory_key (s : State) (m : Memory) : (s.setMemory m).key = s.key := rfl
@[simp] theorem State.setMemory_pix (s : State) (m : Memory) : (s.setMemory m).pix = s.pix := rfl
@[simp] theorem State.setMemory_redraw (s : State) (m : Memory) : (s.setMemory m).redraw = s.redraw := rfl
@[simp] theorem State.setMemory_memory (s : State) (m : Memory) : (s.setMemory m).memory = m := rfl
@[simp] theorem State.setMemory_halt (s : State) (m : Memory) : (s.setMemory m).halt = s.halt := rfl
@[simp] theorem State.setMemory_draws (s : State) (m : Memory) : (s.setMemory m).draws = s.draws := rfl
@[simp] theorem State.setMemory_schedule (s : State) (m : Memory) : (s.setMemory m).schedule = s.schedule := rfl

@[simp] theorem State.setDisplay_v (s : State) (d : Display) : (s.setDisplay d).v = s.v := rfl
@[simp] theorem State.setDisplay_i (s : State) (d : Display) : (s.setDisplay d).i = s.i := rfl
@[simp] theorem State.setDisplay_pc (s : State) (d : Display) : (s.setDisplay d).pc = s.pc := rfl
@[simp] theorem State.setDisplay_sp (s : State) (d : Display) : (s.setDisplay d).sp = s.sp := rfl
@[simp] theorem State.setDisplay_stack (s : State) (d : Display) : (s.setDisplay d).stack = s.stack := rfl
@[simp] theorem State.setDisplay_dt (s : State) (d : Display) : (s.setDisplay d).dt = s.dt := rfl
@[simp] theorem State.setDisplay_st (s : State) (d : Display) : (s.setDisplay d).st = s.st := rfl
@[simp] theorem State.setDisplay_key (s : State) (d : Display) : (s.setDisplay d).key = s.key := rfl
@[simp] theorem State.setDisplay_pix (s : State) (d : Display) : (s.setDisplay d).pix = d := rfl
@[simp] theorem State.setDisplay_redraw (s : State) (d : Display) : (s.setDisplay d).redraw = true := rfl
@[simp] theorem State.setDisplay_memory (s : State) (d : Display) : (s.setDisplay d).memory = s.memory := rfl
@[simp] theorem State.setDisplay_halt (s : State) (d : Display) : (s.setDisplay d).halt = s.halt := rfl
@[simp] theorem State.setDisplay_draws (s : State) (d : Display) : (s.setDisplay d).draws = s.draws := rfl
@[simp] theorem State.setDisplay_schedule (s : State) (d : Display) : (s.setDisplay d).schedule = s.schedule := rfl

@[simp] theorem State.countDraw_v (s : State) : (s.countDraw).v = s.v := rfl
@[simp] theorem State.countDraw_i (s : State) : (s.countDraw).i = s.i := rfl
@[simp] theorem State.countDraw_pc (s : State) : (s.countDraw).pc = s.pc := rfl
@[simp] theorem State.countDraw_sp (s : State) : (s.countDraw).sp = s.sp := rfl
@[simp] theorem State.countDraw_stack (s : State) : (s.countDraw).stack = s.stack := rfl
@[simp] theorem State.countDraw_dt (s : State) : (s.countDraw).dt = s.dt := rfl
@[simp] theorem State.countDraw_st (s : State) : (s.countDraw).st = s.st := rfl
@[simp] theorem State.countDraw_key (s : State) : (s.countDraw).key = s.key := rfl
@[simp] theorem State.countDraw_pix (s : State) : (s.countDraw).pix = s.pix := rfl
@[simp] theorem State.countDraw_redraw (s : State) : (s.countDraw).redraw = s.redraw := rfl
@[simp] theorem State.countDraw_memory (s : State) : (s.countDraw).memory = s.memory := rfl
@[simp] theorem State.countDraw_halt (s : State) : (s.countDraw).halt = s.halt := rfl
@[simp] theorem State.countDraw_draws (s : State) : (s.countDraw).draws = s.draws + 1 := rfl
@[simp] theorem State.countDraw_schedule (s : State) : (s.countDraw).schedule = s.schedule := rfl

@[simp] theorem State.setPc_v (s : State) (w : Word) : (s.setPc w).v = s.v := rfl
@[simp] theorem State.setPc_i (s : State) (w : Word) : (s.setPc w).i = s.i := rfl
@[simp] theorem State.setPc_pc (s : State) (w : Word) : (s.setPc w).pc = w := rfl
@[simp] theorem State.setPc_sp (s : State) (w : Word) : (s.setPc w).sp = s.sp := rfl
@[simp] theorem State.setPc_stack (s : State) (w : Word) : (s.setPc w).stack = s.stack := rfl
@[simp] theorem State.setPc_dt (s : State) (w : Word) : (s.setPc w).dt = s.dt := rfl
@[simp] theorem State.setPc_st (s : State) (w : Word) : (s.setPc w).st = s.st := rfl
@[simp] theorem State.setPc_key (s : State) (w : Word) : (s.setPc w).key = s.key := rfl
@[simp] theorem State.setPc_pix (s : State) (w : Word) : (s.setPc w).pix = s.pix := rfl
@[simp] theorem State.setPc_redraw (s : State) (w : Word) : (s.setPc w).redraw = s.redraw := rfl
@[simp] theorem State.setPc_memory (s : State) (w : Word) : (s.setPc w).memory = s.memory := rfl
@[simp] theorem State.setPc_halt (s : State) (w : Word) : (s.setPc w).halt = s.halt := rfl
@[simp] theorem State.setPc_draws (s : State) (w : Word) : (s.setPc w).draws = s.draws := rfl
@[simp] theorem State.setPc_schedule (s : State) (w : Word) : (s.setPc w).schedule = s.schedule := rfl

@[simp] theorem State.advance_v (s : State) : (s.advance).v = s.v := rfl
@[simp] theorem State.advance_i (s : State) : (s.advance).i = s.i := rfl
@[simp] theorem State.advance_pc (s : State) : (s.advance).pc = s.pc + 2 := rfl
@[simp] theorem State.advance_sp (s : State) : (s.advance).sp = s.sp := rfl
@[simp] theorem State.advance_stack (s : State) : (s.advance).stack = s.stack := rfl
@[simp] theorem State.advance_dt (s : State) : (s.advance).dt = s.dt := rfl
@[simp] theorem State.advance_st (s : State) : (s.advance).st = s.st := rfl
@[simp] theorem State.advance_key (s : State) : (s.advance).key = s.key := rfl
@[simp] theorem State.advance_pix (s : State) : (s.advance).pix = s.pix := rfl
@[simp] theorem State.advance_redraw (s : State) : (s.advance).redraw = s.redraw := rfl
@[simp] theorem State.advance_memory (s : State) : (s.advance).memory = s.memory := rfl
@[simp] theorem State.advance_halt (s : State) : (s.advance).halt = s.halt := rfl
@[simp] theorem State.advance_draws (s : State) : (s.advance).draws = s.draws := rfl
@[simp] theorem State.advance_schedule (s : State) : (s.advance).schedule = s.schedule := rfl

@[simp] theorem State.skipIf_v (s : State) (c : Bool) : (s.skipIf c).v = s.v := rfl
@[simp] theorem State.skipIf_i (s : State) (c : Bool) : (s.skipIf c).i = s.i := rfl
@[simp] theorem State.skipIf_pc (s : State) (c : Bool) : (s.skipIf c).pc = if c then s.pc + 4 else s.pc + 2 := rfl
@[simp] theorem State.skipIf_sp (s : State) (c : Bool) : (s.skipIf c).sp = s.sp := rfl
@[simp] theorem State.skipIf_stack (s : State) (c : Bool) : (s.skipIf c).stack = s.stack := rfl
@[simp] theorem State.skipIf_dt (s : State) (c : Bool) : (s.skipIf c).dt = s.dt := rfl
@[simp] theorem State.skipIf_st (s : State) (c : Bool) : (s.skipIf c).st = s.st := rfl
@[simp] theorem State.skipIf_key (s : State) (c : Bool) : (s.skipIf c).key = s.key := rfl
@[simp] theorem State.skipIf_pix (s : State) (c : Bool) : (s.skipIf c).pix = s.pix := rfl
@[simp] theorem State.skipIf_redraw (s : State) (c : Bool) : (s.skipIf c).redraw = s.redraw := rfl
@[simp] theorem State.skipIf_memory (s : State) (c : Bool) : (s.skipIf c).memory = s.memory := rfl
@[simp] theorem State.skipIf_halt (s : State) (c : Bool) : (s.skipIf c).halt = s.halt := rfl
@[simp] theorem State.skipIf_draws (s : State) (c : Bool) : (s.skipIf c).draws = s.draws := rfl
@[simp] theorem State.skipIf_schedule (s : State) (c : Bool) : (s.skipIf c).schedule = s.schedule := rfl

@[simp] theorem State.tick_v (s : State) (k : Nat) : (s.tick k).v = s.v := rfl
@[simp] theorem State.tick_i (s : State) (k : Nat) : (s.tick k).i = s.i := rfl
@[simp] theorem State.tick_pc (s : State) (k : Nat) : (s.tick k).pc = s.pc := rfl
@[simp] theorem State.tick_sp (s : State) (k : Nat) : (s.tick k).sp = s.sp := rfl
@[simp] theorem State.tick_stack (s : State) (k : Nat) : (s.tick k).stack = s.stack := rfl
@[simp] theorem State.tick_dt (s : State) (k : Nat) : (s.tick k).dt = tickByte s.dt k := rfl
@[simp] theorem State.tick_st (s : State) (k : Nat) : (s.tick k).st = tickByte s.st k := rfl
@[simp] theorem State.tick_key (s : State) (k : Nat) : (s.tick k).key = s.key := rfl
@[simp] theorem State.tick_pix (s : State) (k : Nat) : (s.tick k).pix = s.pix := rfl
@[simp] theorem State.tick_redraw (s : State) (k : Nat) : (s.tick k).redraw = s.redraw := rfl
@[simp] theorem State.tick_memory (s : State) (k : Nat) : (s.tick k).memory = s.memory := rfl
@[simp] theorem State.tick_halt (s : State) (k : Nat) : (s.tick k).halt = s.halt := rfl
@[simp] theorem State.tick_draws (s : State) (k : Nat) : (s.tick k).draws = s.draws := rfl
@[simp] theorem State.tick_schedule (s : State) (k : Nat) : (s.tick k).schedule = s.schedule := rfl

@[simp] theorem State.setKey_v (s : State) (k : Fin 16) (b : Bool) : (s.setKey k b).v = s.v := rfl
@[simp] theorem State.setKey_i (s : State) (k : Fin 16) (b : Bool) : (s.setKey k b).i = s.i := rfl
@[simp] theorem State.setKey_pc (s : State) (k : Fin 16) (b : Bool) : (s.setKey k b).pc = s.pc := rfl
@[simp] theorem State.setKey_sp (s : State) (k : Fin 16) (b : Bool) : (s.setKey k b).sp = s.sp := rfl
@[simp] theorem State.setKey_stack (s : State) (k : Fin 16) (b : Bool) : (s.setKey k b).stack = s.stack := rfl
@[simp] theorem State.setKey_dt (s : State) (k : Fin 16) (b : Bool) : (s.setKey k b).dt = s.dt := rfl
@[simp] theorem State.setKey_st (s : State) (k : Fin 16) (b : Bool) : (s.setKey k b).st = s.st := rfl
@[simp] theorem State.setKey_key (s : State) (k : Fin 16) (b : Bool) : (s.setKey k b).key = s.key.set k b := rfl
@[simp] theorem State.setKey_pix (s : State) (k : Fin 16) (b : Bool) : (s.setKey k b).pix = s.pix := rfl
@[simp] theorem State.setKey_redraw (s : State) (k : Fin 16) (b : Bool) : (s.setKey k b).redraw = s.redraw := rfl
@[simp] theorem State.setKey_memory (s : State) (k : Fin 16) (b : Bool) : (s.setKey k b).memory = s.memory := rfl
@[simp] theorem State.setKey_halt (s : State) (k : Fin 16) (b : Bool) : (s.setKey k b).halt = s.halt := rfl
@[simp] theorem State.setKey_draws (s : State) (k : Fin 16) (b : Bool) : (s.setKey k b).draws = s.draws := rfl
@[simp] theorem State.setKey_schedule (s : State) (k : Fin 16) (b : Bool) : (s.setKey k b).schedule = s.schedule := rfl

@[simp] theorem State.clearRedraw_v (s : State) : (s.clearRedraw).v = s.v := rfl
@[simp] theorem State.clearRedraw_i (s : State) : (s.clearRedraw).i = s.i := rfl
@[simp] theorem State.clearRedraw_pc (s : State) : (s.clearRedraw).pc = s.pc := rfl
@[simp] theorem State.clearRedraw_sp (s : State) : (s.clearRedraw).sp = s.sp := rfl
@[simp] theorem State.clearRedraw_stack (s : State) : (s.clearRedraw).stack = s.stack := rfl
@[simp] theorem State.clearRedraw_dt (s : State) : (s.clearRedraw).dt = s.dt := rfl
@[simp] theorem State.clearRedraw_st (s : State) : (s.clearRedraw).st = s.st := rfl
@[simp] theorem State.clearRedraw_key (s : State) : (s.clearRedraw).key = s.key := rfl
@[simp] theorem State.clearRedraw_pix (s : State) : (s.clearRedraw).pix = s.pix := rfl
@[simp] theorem State.clearRedraw_redraw (s : State) : (s.clearRedraw).redraw = false := rfl
@[simp] theorem State.clearRedraw_memory (s : State) : (s.clearRedraw).memory = s.memory := rfl
@[simp] theorem State.clearRedraw_halt (s : State) : (s.clearRedraw).halt = s.halt := rfl
@[simp] theorem State.clearRedraw_draws (s : State) : (s.clearRedraw).draws = s.draws := rfl
@[simp] theorem State.clearRedraw_schedule (s : State) : (s.clearRedraw).schedule = s.schedule := rfl

@[simp] theorem State.takeOperation_v (s : State) : (s.takeOperation).v = s.v := rfl
@[simp] theorem State.takeOperation_i (s : State) : (s.takeOperation).i = s.i := rfl
@[simp] theorem State.takeOperation_pc (s : State) : (s.takeOperation).pc = s.pc := rfl
@[simp] theorem State.takeOperation_sp (s : State) : (s.takeOperation).sp = s.sp := rfl
@[simp] theorem State.takeOperation_stack (s : State) : (s.takeOperation).stack = s.stack := rfl
@[simp] theorem State.takeOperation_dt (s : State) : (s.takeOperation).dt = s.dt := rfl
@[simp] theorem State.takeOperation_st (s : State) : (s.takeOperation).st = s.st := rfl
@[simp] theorem State.takeOperation_key (s : State) : (s.takeOperation).key = s.key := rfl
@[simp] theorem State.takeOperation_pix (s : State) : (s.takeOperation).pix = s.pix := rfl
@[simp] theorem State.takeOperation_redraw (s : State) : (s.takeOperation).redraw = s.redraw := rfl
@[simp] theorem State.takeOperation_memory (s : State) : (s.takeOperation).memory = s.memory := rfl
@[simp] theorem State.takeOperation_halt (s : State) : (s.takeOperation).halt = s.halt := rfl
@[simp] theorem State.takeOperation_draws (s : State) : (s.takeOperation).draws = s.draws := rfl
@[simp] theorem State.takeOperation_schedule (s : State) : (s.takeOperation).schedule = s.schedule.rest := rfl

@[simp] theorem State.faulted_v (s : State) (c : Cause) (o : Option Word) (n : Nat) : (s.faulted c o n).v = s.v := rfl
@[simp] theorem State.faulted_i (s : State) (c : Cause) (o : Option Word) (n : Nat) : (s.faulted c o n).i = s.i := rfl
@[simp] theorem State.faulted_pc (s : State) (c : Cause) (o : Option Word) (n : Nat) : (s.faulted c o n).pc = s.pc := rfl
@[simp] theorem State.faulted_sp (s : State) (c : Cause) (o : Option Word) (n : Nat) : (s.faulted c o n).sp = s.sp := rfl
@[simp] theorem State.faulted_stack (s : State) (c : Cause) (o : Option Word) (n : Nat) : (s.faulted c o n).stack = s.stack := rfl
@[simp] theorem State.faulted_dt (s : State) (c : Cause) (o : Option Word) (n : Nat) : (s.faulted c o n).dt = s.dt := rfl
@[simp] theorem State.faulted_st (s : State) (c : Cause) (o : Option Word) (n : Nat) : (s.faulted c o n).st = s.st := rfl
@[simp] theorem State.faulted_key (s : State) (c : Cause) (o : Option Word) (n : Nat) : (s.faulted c o n).key = s.key := rfl
@[simp] theorem State.faulted_pix (s : State) (c : Cause) (o : Option Word) (n : Nat) : (s.faulted c o n).pix = s.pix := rfl
@[simp] theorem State.faulted_redraw (s : State) (c : Cause) (o : Option Word) (n : Nat) : (s.faulted c o n).redraw = s.redraw := rfl
@[simp] theorem State.faulted_memory (s : State) (c : Cause) (o : Option Word) (n : Nat) : (s.faulted c o n).memory = s.memory := rfl
@[simp] theorem State.faulted_halt (s : State) (c : Cause) (o : Option Word) (n : Nat) : (s.faulted c o n).halt = .halted ⟨c, s.pc, o, n⟩ := rfl
@[simp] theorem State.faulted_draws (s : State) (c : Cause) (o : Option Word) (n : Nat) : (s.faulted c o n).draws = s.draws := rfl
@[simp] theorem State.faulted_schedule (s : State) (c : Cause) (o : Option Word) (n : Nat) : (s.faulted c o n).schedule = s.schedule := rfl

end Sys2Proof.Machine
end

