-- ==== Sys2Proof/Laws/Ops.lean ====
section
/-! SUPPORT. One lemma per shared operation, saying once everything it can do. -/

namespace Sys2Proof.Machine

/-! ### Address checks and fetch -/

theorem firstOutside_none_iff (base n : Nat) : firstOutside base n = none ↔ n = 0 ∨ base + n ≤ memSize := by
  simp only [firstOutside, List.find?_eq_none, List.mem_range'_1, decide_eq_true_eq, memSize]
  constructor
  · intro h
    by_cases hn : n = 0
    · exact .inl hn
    · have := h (base + n - 1) (by omega)
      omega
  · intro h a ha
    omega

/-- The lowest address outside memory is 4096, or the base itself when it is higher. -/
theorem firstOutside_some {base n : Nat} (hn : n ≠ 0) (h : memSize < base + n) :
    firstOutside base n = some (max base memSize) := by
  simp only [memSize] at h
  rw [firstOutside, List.find?_range'_eq_some]
  simp only [memSize, decide_eq_true_eq, List.mem_range'_1, Bool.not_eq_true', decide_eq_false_iff_not]
  refine ⟨by omega, by omega, fun j hj hlt => by omega⟩

theorem firstOutside_cases (base n : Nat) :
    (firstOutside base n = none ∧ (n = 0 ∨ base + n ≤ memSize)) ∨
    (firstOutside base n = some (max base memSize) ∧ n ≠ 0 ∧ memSize < base + n) := by
  by_cases h : n = 0 ∨ base + n ≤ memSize
  · exact .inl ⟨(firstOutside_none_iff base n).2 h, h⟩
  · rw [not_or, Nat.not_le] at h
    exact .inr ⟨firstOutside_some h.1 h.2, h.1, h.2⟩

/-- The fetch of a `PC` that is at most 4094. -/
theorem fetch_ok {s : State} (h : s.pc.toNat ≤ 4094) :
    fetch s = .ok (wordOfBytes (s.memory.read s.pc.toNat) (s.memory.read (s.pc.toNat + 1))) := by
  rw [fetch, (firstOutside_none_iff _ _).2 (.inr (by simp only [memSize]; omega))]

/-- The fetch of a `PC` above 4094. -/
theorem fetch_error {s : State} (h : 4094 < s.pc.toNat) : fetch s = .error (max s.pc.toNat memSize) := by
  rw [fetch, firstOutside_some (by omega) (by simp only [memSize]; omega)]

theorem fetch_cases (s : State) :
    (s.pc.toNat ≤ 4094 ∧
      fetch s = .ok (wordOfBytes (s.memory.read s.pc.toNat) (s.memory.read (s.pc.toNat + 1)))) ∨
    (4094 < s.pc.toNat ∧ fetch s = .error (max s.pc.toNat memSize)) := by
  rcases Nat.lt_or_ge 4094 s.pc.toNat with h | h
  · exact .inr ⟨h, fetch_error h⟩
  · exact .inl ⟨h, fetch_ok h⟩

/-! ### Registers -/

@[simp] theorem getV_eq (s : State) (r : Reg) : s.getV r = s.v[r] := rfl

/-- One register after one register write. -/
theorem setV_at (s : State) (r k : Reg) (b : Byte) : (s.setV r b).v[k] = if k = r then b else s.v[k] := by
  simp only [State.setV_v, Fin.getElem_fin, Vector.getElem_set, Fin.ext_iff]
  split <;> split <;> simp_all

/-- `setV_at` for a register number written as a natural number. -/
theorem setV_get (s : State) (r : Reg) (b : Byte) (k : Nat) (h : k < 16) :
    (s.setV r b).v[k] = if k = r.val then b else s.v[k] := by
  rw [State.setV_v, Vector.getElem_set]
  exact if_congr eq_comm rfl rfl

/-- One register after a flag and a result (spec/42_load_and_alu.md R110). -/
theorem setFlagThenResult_at (s : State) (x k : Reg) (f b : Byte) :
    (s.setFlagThenResult x f b).v[k] = if k = x then b else if k = 15 then f else s.v[k] := by
  rw [State.setFlagThenResult, setV_at, setV_at]

/-! ### Call stack -/

theorem push_of_lt {s : State} (w : Word) (h : s.sp.val < 16) :
    s.push w = some { s with stack := s.stack.set s.sp.val w, sp := ⟨s.sp.val + 1, by omega⟩ } := by
  rw [State.push, dif_pos h]

theorem push_full {s : State} (w : Word) (h : s.sp.val = 16) : s.push w = none := by
  rw [State.push, dif_neg (by omega)]

/-- Everything a push can do. -/
theorem push_cases (s : State) (w : Word) :
    (∃ h : s.sp.val < 16, s.push w = some { s with stack := s.stack.set s.sp.val w, sp := ⟨s.sp.val + 1, by omega⟩ }) ∨
    (s.sp.val = 16 ∧ s.push w = none) := by
  rcases Nat.lt_or_ge s.sp.val 16 with h | h
  · exact .inl ⟨h, push_of_lt w h⟩
  · exact .inr ⟨by omega, push_full w (by omega)⟩

theorem pop_of_pos {s : State} (h : 0 < s.sp.val) :
    s.pop = some (s.stack[s.sp.val - 1], { s with sp := ⟨s.sp.val - 1, by omega⟩ }) := by
  rw [State.pop, dif_pos h]

theorem pop_empty {s : State} (h : s.sp.val = 0) : s.pop = none := by
  rw [State.pop, dif_neg (by omega)]

/-- Everything a pop can do. -/
theorem pop_cases (s : State) :
    (∃ h : 0 < s.sp.val, s.pop = some (s.stack[s.sp.val - 1], { s with sp := ⟨s.sp.val - 1, by omega⟩ })) ∨
    (s.sp.val = 0 ∧ s.pop = none) := by
  rcases Nat.eq_zero_or_pos s.sp.val with h | h
  · exact .inr ⟨h, pop_empty h⟩
  · exact .inl ⟨h, pop_of_pos h⟩

/-! ### Faults -/

theorem takeFault_eq (c : Cause) (op : Option Word) (value : Nat) (s : State) :
    takeFault c op value s = .next (s.faulted c op value) := rfl

theorem raiseIn_eq (i : Instr) (c : Cause) (value : Nat) (s : State) :
    raiseIn i c value s = .next (s.faulted c (some (encode i)) value) := rfl

theorem executeUnrecognized_cases (p : UnrecognizedPolicy) (op : Word) (s : State) :
    (p = .fatal ∧ executeUnrecognized p op s = .next (s.faulted .decodeError (some op) op.toNat)) ∨
    (p = .noop ∧ executeUnrecognized p op s = .next s.advance) := by
  cases p
  · exact .inl ⟨rfl, rfl⟩
  · exact .inr ⟨rfl, rfl⟩

/-! ### Frames -/

/-- Nothing but `PC` written. -/
theorem Unchanged.setPc (s : State) (w : Word) (l : Writes) : Unchanged l s (s.setPc w) := by
  constructor <;> intros <;> rfl

/-- A fault writes the halt latch and nothing else. -/
theorem Unchanged.faulted (s : State) (c : Cause) (op : Option Word) (value : Nat) (l : Writes) (h : l.halt = true) :
    Unchanged l s (s.faulted c op value) := by
  constructor <;> intros <;> first | rfl | simp_all

/-! ### Operands -/

/-- A byte names a key of the latch exactly when it is below 16. -/
theorem keyIndex_cases (b : Byte) :
    (∃ h : b.toNat < 16, keyIndex b = some ⟨b.toNat, h⟩) ∨ (15 < b.toNat ∧ keyIndex b = none) := by
  unfold keyIndex
  split
  · exact .inl ⟨by assumption, rfl⟩
  · exact .inr ⟨by omega, rfl⟩

/-- `leastKey` gives the least pressed key. -/
theorem leastKey_eq_some {s : State} {k : Fin 16} (h : s.key[k] = true) (hl : ∀ j : Fin 16, j < k → s.key[j] = false) :
    s.leastKey = some k := by
  cases hf : s.leastKey with
  | none =>
    have := List.find?_eq_none.1 hf k (List.mem_finRange k)
    exact absurd h this
  | some j =>
    have hj : s.key[j] = true := List.find?_some (p := fun k => s.key[k]) hf
    rcases lt_trichotomy j k with hlt | he | hgt
    · simp [hl j hlt] at hj
    · rw [he]
    · obtain ⟨as, bs, hab, hn⟩ := (List.find?_eq_some_iff_append.1 hf).2
      have hk : k ∈ as := by
        have hmem : k ∈ as ++ j :: bs := hab ▸ List.mem_finRange k
        rcases List.mem_append.1 hmem with hm | hm
        · exact hm
        · have hs : (List.finRange 16).Pairwise (· < ·) := List.pairwise_lt_finRange 16
          rw [hab, List.pairwise_append] at hs
          rcases List.mem_cons.1 hm with rfl | hm
          · omega
          · exact absurd ((List.pairwise_cons.1 hs.2.1).1 k hm) (by omega)
      have := hn k hk
      simp_all

theorem leastKey_eq_none {s : State} (h : ∀ k : Fin 16, s.key[k] = false) : s.leastKey = none := by
  refine List.find?_eq_none.2 fun k _ => ?_
  simp [h k]

theorem leastKey_some {s : State} {k : Fin 16} (h : s.leastKey = some k) : s.key[k] = true :=
  List.find?_some (p := fun k => s.key[k]) h

@[simp] theorem length_groupUpTo (s : State) (x : Reg) : (s.groupUpTo x).length = x.val + 1 := by
  simp only [State.groupUpTo, List.length_take, Vector.length_toList]
  omega

theorem getElem_groupUpTo (s : State) (x : Reg) (k : Nat) (h : k < (s.groupUpTo x).length) :
    (s.groupUpTo x)[k] = s.v[k]'(by simp at h; omega) := by
  simp [State.groupUpTo]

@[simp] theorem groupFromMemory_at (s : State) (x k : Reg) :
    (s.groupFromMemory x)[k] = if k ≤ x then s.memory.read (s.i.toNat + k.val) else s.v[k] := by
  simp [State.groupFromMemory, State.dataAddr]

@[simp] theorem length_decimalDigits (a : Byte) : (decimalDigits a).length = 3 := rfl

theorem addrOperand_toNat (nnn : Addr) : (addrOperand nnn).toNat = nnn.toNat := by
  simp [addrOperand, BitVec.toNat_setWidth]
  omega

theorem byteOperand_toNat (b : Byte) : (byteOperand b).toNat = b.toNat := by
  simp [byteOperand, BitVec.toNat_setWidth]
  omega

/-! ### Flags and modular results -/

theorem sumByte_toNat (a b : Byte) : (sumByte a b).toNat = (a.toNat + b.toNat) % 256 := by
  simp [sumByte]

theorem differenceByte_toNat (a b : Byte) : (differenceByte a b).toNat = (a.toNat + 256 - b.toNat) % 256 := by
  simp [differenceByte]

theorem shiftRightByte_toNat (a : Byte) : (shiftRightByte a).toNat = a.toNat / 2 := by
  simp [shiftRightByte, Nat.shiftRight_eq_div_pow]

theorem shiftLeftByte_toNat (a : Byte) : (shiftLeftByte a).toNat = a.toNat * 2 % 256 := by
  simp [shiftLeftByte, Nat.shiftLeft_eq]

theorem lowBitFlag_toNat (a : Byte) : (lowBitFlag a).toNat = a.toNat % 2 := by
  simp [lowBitFlag, Nat.and_one_is_mod]

theorem highBitFlag_toNat (a : Byte) : (highBitFlag a).toNat = a.toNat / 128 := by
  simp [highBitFlag, Nat.and_one_is_mod, Nat.shiftRight_eq_div_pow]
  omega

theorem flagByte_toNat (c : Bool) : (flagByte c).toNat = if c then 1 else 0 := by
  cases c <;> rfl

theorem carryFlag_toNat (a b : Byte) : (carryFlag a b).toNat = if 255 < a.toNat + b.toNat then 1 else 0 := by
  rw [carryFlag, flagByte_toNat]
  simp

theorem noBorrowFlag_toNat (a b : Byte) : (noBorrowFlag a b).toNat = if b.toNat ≤ a.toNat then 1 else 0 := by
  rw [noBorrowFlag, flagByte_toNat]
  simp

/-! ### Host and timer operations -/

theorem tickByte_toNat (t : Byte) (k : Nat) : (tickByte t k).toNat = t.toNat - k := by
  simp [tickByte]
  omega

@[simp] theorem resetMachine_halt (s : State) : (resetMachine s).halt = .running := rfl
@[simp] theorem resetMachine_memory (s : State) : (resetMachine s).memory = [] := rfl
@[simp] theorem resetMachine_pc (s : State) : (resetMachine s).pc = 0x200 := rfl
@[simp] theorem resetMachine_sp (s : State) : (resetMachine s).sp = 0 := rfl

theorem loadFont_cases (base : Word) (font : List Byte) (s : State) :
    (base.toNat + font.length ≤ memSize ∧
      loadFont base font s = .ok (s.setMemory (writeBytes s.memory base.toNat font))) ∨
    (memSize < base.toNat + font.length ∧ loadFont base font s = .error (.fontOutsideMemory base)) := by
  unfold loadFont
  split
  · exact .inl ⟨by assumption, rfl⟩
  · exact .inr ⟨by omega, rfl⟩

theorem loadImage_cases (image : List Byte) (s : State) :
    (image.length ≤ 3584 ∧ loadImage image s = .ok (s.setMemory (writeBytes s.memory programBase image))) ∨
    (3584 < image.length ∧ loadImage image s = .error (.loadError image.length)) := by
  simp only [loadImage, imageFits, memSize, programBase, decide_eq_true_eq]
  split
  · exact .inl ⟨by omega, rfl⟩
  · exact .inr ⟨by omega, rfl⟩

/-- If boot answers a next state, it is the reset machine with a canonical memory. -/
theorem bootMachine_next {image : List Byte} {fontFirst : Bool} {s t : State} (h : bootMachine image fontFirst s = .next t) :
    ∃ m : Memory, m.wf ∧ t = (resetMachine s).setMemory m := by
  have hf : ∀ u v : State, u.memory.wf → loadFont fontBase fontData u = .ok v →
      ∃ m : Memory, m.wf ∧ v = u.setMemory m := by
    intro u v hu hv
    rcases loadFont_cases fontBase fontData u with ⟨hl, he⟩ | ⟨_, he⟩ <;> rw [he] at hv <;> cases hv
    exact ⟨_, wf_writeBytes hu hl, rfl⟩
  have hi : ∀ u v : State, u.memory.wf → loadImage image u = .ok v → ∃ m : Memory, m.wf ∧ v = u.setMemory m := by
    intro u v hu hv
    rcases loadImage_cases image u with ⟨hl, he⟩ | ⟨_, he⟩ <;> rw [he] at hv <;> cases hv
    exact ⟨_, wf_writeBytes hu (by simp only [memSize, programBase]; omega), rfl⟩
  have h0 : (resetMachine s).memory.wf := Memory.wf_nil
  unfold bootMachine bootWith at h
  cases fontFirst
  · cases h1 : loadImage image (resetMachine s) with
    | error e => simp [h1, Except.bind] at h
    | ok u =>
      cases h2 : loadFont fontBase fontData u with
      | error e => simp [h1, h2, Except.bind] at h
      | ok w =>
        simp [h1, h2, Except.bind] at h
        obtain ⟨m, hm, rfl⟩ := hi _ _ h0 h1
        obtain ⟨m', hm', rfl⟩ := hf _ _ hm h2
        exact ⟨m', hm', h ▸ rfl⟩
  · cases h1 : loadFont fontBase fontData (resetMachine s) with
    | error e => simp [h1, Except.bind] at h
    | ok u =>
      cases h2 : loadImage image u with
      | error e => simp [h1, h2, Except.bind] at h
      | ok w =>
        simp [h1, h2, Except.bind] at h
        obtain ⟨m, hm, rfl⟩ := hf _ _ h0 h1
        obtain ⟨m', hm', rfl⟩ := hi _ _ hm h2
        exact ⟨m', hm', h ▸ rfl⟩

end Sys2Proof.Machine
end

