-- ==== Sys2Proof/Laws/Display.lean ====
section
/-! SUPPORT. What the sprite-draw unit does to a cell: it flips the cell when a sprite bit that is 1 lands on it, and a cell
is hit at most once (spec/44_display.md R142, R143 item 4). -/

namespace Sys2Proof.Machine

/-- A bit of a sprite row that is 1 lands on the cell. -/
def RowHits (b : Byte) (cols : List Nat) (r c r' c' : Nat) : Prop :=
  r % 32 = r' % 32 ∧ ∃ col ∈ cols, b.getLsbD (7 - col) = true ∧ (c + col) % 64 = c' % 64

/-- A bit of a sprite that is 1 lands on the cell. -/
def SpriteHits (bs : List Byte) (r c r' c' : Nat) : Prop :=
  ∃ (k : Nat) (h : k < bs.length), RowHits bs[k] (List.range 8) (r + k) c r' c'

theorem Display.cell_toggle (d : Display) (r c r' c' : Nat) :
    (d.toggle r c).cell r' c' = if r % 32 = r' % 32 ∧ c % 64 = c' % 64 then !d.cell r c else d.cell r' c' := by
  simp only [Display.toggle, Display.cell, Vector.getElem_set]
  by_cases hr : r % 32 = r' % 32
  · by_cases hc : c % 64 = c' % 64 <;> simp [hr, hc]
  · simp [hr]

theorem Draw.pixel_cell (d : Draw) (r c r' c' : Nat) :
    (d.pixel r c).pix.cell r' c' = true ↔
      (d.pix.cell r' c' = true ↔ ¬ (r % 32 = r' % 32 ∧ c % 64 = c' % 64)) := by
  simp only [Draw.pixel, Display.cell_toggle]
  split
  · rename_i h
    have : d.pix.cell r c = d.pix.cell r' c' := by simp only [Display.cell, h.1, h.2]
    rw [this]
    cases d.pix.cell r' c' <;> simp [h]
  · rename_i h
    simp [h]

theorem Draw.bit_cell (d : Draw) (b : Byte) (r c col r' c' : Nat) :
    (d.bit b r c col).pix.cell r' c' = true ↔ (d.pix.cell r' c' = true ↔ ¬ RowHits b [col] r c r' c') := by
  unfold Draw.bit RowHits
  split
  · rename_i h
    rw [Draw.pixel_cell]
    simp [h]
  · rename_i h
    simp [h]

theorem Draw.bit_collision (d : Draw) (b : Byte) (r c col : Nat) :
    (d.bit b r c col).collision = true ↔
      (d.collision = true ∨ (b.getLsbD (7 - col) = true ∧ d.pix.cell r (c + col) = true)) := by
  unfold Draw.bit
  split <;> simp_all [Draw.pixel]

theorem not_rowHits_of_other_column {b : Byte} {col k r c : Nat} (h : col < 8) (hk : k < 8) (hne : k ≠ col) :
    ¬ RowHits b [col] r c r (c + k) := by
  rintro ⟨-, j, hj, -, hm⟩
  simp only [List.mem_singleton] at hj
  omega

/-- Distinct columns below 8 of one row: each cell is flipped at most once, and the collision looks at the cells as they
were. -/
theorem Draw.foldl_bits (b : Byte) (r c : Nat) (cols : List Nat) (d : Draw) (h8 : ∀ k ∈ cols, k < 8) (hn : cols.Nodup) :
    (∀ r' c', (cols.foldl (fun acc col => acc.bit b r c col) d).pix.cell r' c' = true ↔
      (d.pix.cell r' c' = true ↔ ¬ RowHits b cols r c r' c')) ∧
    ((cols.foldl (fun acc col => acc.bit b r c col) d).collision = true ↔
      (d.collision = true ∨ ∃ col ∈ cols, b.getLsbD (7 - col) = true ∧ d.pix.cell r (c + col) = true)) := by
  induction cols generalizing d with
  | nil => simp [RowHits]
  | cons col cols ih =>
    have hcol := h8 col (by simp)
    obtain ⟨hnot, hn⟩ := List.nodup_cons.1 hn
    have h8' : ∀ k ∈ cols, k < 8 := fun k hk => h8 k (List.mem_cons_of_mem _ hk)
    obtain ⟨ihp, ihc⟩ := ih (d.bit b r c col) h8' hn
    simp only [List.foldl_cons]
    constructor
    · intro r' c'
      rw [ihp, Draw.bit_cell]
      have hsplit : RowHits b (col :: cols) r c r' c' ↔ RowHits b [col] r c r' c' ∨ RowHits b cols r c r' c' := by
        simp only [RowHits, List.mem_cons, List.not_mem_nil, or_false, exists_eq_or_imp, exists_eq_left]
        tauto
      have hexcl : ¬ (RowHits b [col] r c r' c' ∧ RowHits b cols r c r' c') := by
        rintro ⟨⟨-, j, hj, -, hjm⟩, -, k, hk, -, hkm⟩
        have hk8 := h8' k hk
        have : j ≠ k := by
          rintro rfl
          simp only [List.mem_singleton] at hj
          exact hnot (hj ▸ hk)
        simp only [List.mem_singleton] at hj
        omega
      rw [hsplit]
      tauto
    · rw [ihc, Draw.bit_collision]
      have hsame : ∀ k ∈ cols, ((d.bit b r c col).pix.cell r (c + k) = true ↔ d.pix.cell r (c + k) = true) := by
        intro k hk
        rw [Draw.bit_cell]
        have hne : k ≠ col := fun he => hnot (he ▸ hk)
        simp [not_rowHits_of_other_column (b := b) (r := r) (c := c) hcol (h8' k hk) hne]
      constructor
      · rintro ((h | h) | ⟨k, hk, hb, hc⟩)
        · exact .inl h
        · exact .inr ⟨col, by simp, h⟩
        · exact .inr ⟨k, by simp [hk], hb, (hsame k hk).1 hc⟩
      · rintro (h | ⟨k, hk, hb, hc⟩)
        · exact .inl (.inl h)
        · rcases List.mem_cons.1 hk with rfl | hk
          · exact .inl (.inr ⟨hb, hc⟩)
          · exact .inr ⟨k, hk, hb, (hsame k hk).2 hc⟩

/-- One sprite row. -/
theorem Draw.row_spec (d : Draw) (b : Byte) (r c : Nat) :
    (∀ r' c', (d.row b r c).pix.cell r' c' = true ↔ (d.pix.cell r' c' = true ↔ ¬ RowHits b (List.range 8) r c r' c')) ∧
    ((d.row b r c).collision = true ↔
      (d.collision = true ∨ ∃ col < 8, b.getLsbD (7 - col) = true ∧ d.pix.cell r (c + col) = true)) := by
  have h := Draw.foldl_bits b r c (List.range 8) d (fun k hk => List.mem_range.1 hk) List.nodup_range
  refine ⟨h.1, h.2.trans ?_⟩
  simp only [List.mem_range]

theorem spriteHits_cons (b : Byte) (bs : List Byte) (r c r' c' : Nat) :
    SpriteHits (b :: bs) r c r' c' ↔ RowHits b (List.range 8) r c r' c' ∨ SpriteHits bs (r + 1) c r' c' := by
  constructor
  · rintro ⟨k, hk, h⟩
    cases k with
    | zero => exact .inl h
    | succ k =>
      refine .inr ⟨k, by simpa using hk, ?_⟩
      rw [show r + 1 + k = r + (k + 1) by omega]
      exact h
  · rintro (h | ⟨k, hk, h⟩)
    · exact ⟨0, by simp, h⟩
    · refine ⟨k + 1, by simpa using hk, ?_⟩
      rw [show r + 1 + k = r + (k + 1) by omega] at h
      exact h

/-- The rows of a sprite of at most 32 rows: a cell is flipped exactly when a 1 bit lands on it, and there is a collision
exactly when a 1 bit lands on a cell that was on. -/
theorem Draw.rows_spec (bs : List Byte) (d : Draw) (r c : Nat) (hl : bs.length ≤ 32) :
    (∀ r' c', (d.rows bs r c).pix.cell r' c' = true ↔ (d.pix.cell r' c' = true ↔ ¬ SpriteHits bs r c r' c')) ∧
    ((d.rows bs r c).collision = true ↔
      (d.collision = true ∨ ∃ r' c', SpriteHits bs r c r' c' ∧ d.pix.cell r' c' = true)) := by
  induction bs generalizing d r with
  | nil => simp [Draw.rows, SpriteHits]
  | cons b bs ih =>
    simp only [List.length_cons] at hl
    obtain ⟨ihp, ihc⟩ := ih (d.row b r c) (r + 1) (by omega)
    obtain ⟨hrp, hrc⟩ := Draw.row_spec d b r c
    have hexcl : ∀ r' c', ¬ (RowHits b (List.range 8) r c r' c' ∧ SpriteHits bs (r + 1) c r' c') := by
      rintro r' c' ⟨⟨h1, -⟩, k, hk, h2, -⟩
      omega
    constructor
    · intro r' c'
      rw [Draw.rows, ihp, hrp, spriteHits_cons]
      have := hexcl r' c'
      tauto
    · rw [Draw.rows, ihc, hrc]
      constructor
      · rintro ((h | ⟨col, hcol, hb, hc⟩) | ⟨r', c', hh, hc⟩)
        · exact .inl h
        · exact .inr ⟨r, c + col, (spriteHits_cons ..).2 (.inl ⟨rfl, col, List.mem_range.2 hcol, hb, rfl⟩), hc⟩
        · refine .inr ⟨r', c', (spriteHits_cons ..).2 (.inr hh), ?_⟩
          have := hexcl r' c'
          rw [hrp] at hc
          tauto
      · rintro (h | ⟨r', c', hh, hc⟩)
        · exact .inl (.inl h)
        · rcases (spriteHits_cons ..).1 hh with ⟨hr, col, hcol, hb, hm⟩ | hs
          · refine .inl (.inr ⟨col, List.mem_range.1 hcol, hb, ?_⟩)
            have : d.pix.cell r (c + col) = d.pix.cell r' c' := by simp only [Display.cell, hr, hm]
            rw [this, hc]
          · refine .inr ⟨r', c', hs, ?_⟩
            have := hexcl r' c'
            rw [hrp]
            tauto

end Sys2Proof.Machine
end

