-- ==== Sys2Proof/Laws/PerInstr.lean ====
section
/-! SUPPORT. Per-instruction facts about the syntax: the word of an instruction is selected by the instruction's own row of
the opcode table (spec/30_encoding.md R73, R74). -/

namespace Sys2Proof.Laws.RowSelects

/-- The encoded word matches the instruction's own row. -/
def Statement (i : Instr) : Prop := i.row.selects (encode i) = true

theorem selects_of_toNat {name : String} {p m op : Word} (h : (op &&& m).toNat = p.toNat) :
    (OpcodeRow.mk name p m).selects op = true :=
  beq_iff_eq.2 (BitVec.eq_of_toNat_eq h)

theorem selects_NNN {name : String} {p : Word} (t : Nibble) (nnn : Addr) (h : p.toNat = t.toNat * 4096) :
    (OpcodeRow.mk name p 0xF000).selects (formatNNN t nnn) = true := by
  refine selects_of_toNat ((and_high _).trans ?_)
  rw [formatNNN_toNat]
  omega

theorem selects_XKK {name : String} {p : Word} (t : Nibble) (x : Reg) (kk : Byte) (h : p.toNat = t.toNat * 4096) :
    (OpcodeRow.mk name p 0xF000).selects (formatXKK t x kk) = true := by
  refine selects_of_toNat ((and_high _).trans ?_)
  rw [formatXKK_toNat]
  omega

theorem selects_XYN {name : String} {p : Word} (t : Nibble) (x y : Reg) (n : Nibble) (h : p.toNat = t.toNat * 4096) :
    (OpcodeRow.mk name p 0xF000).selects (formatXYN t x y n) = true := by
  refine selects_of_toNat ((and_high _).trans ?_)
  rw [formatXYN_toNat]
  omega

theorem selects_XY {name : String} {p : Word} (t : Nibble) (x y : Reg) (n : Nibble)
    (h : p.toNat = t.toNat * 4096 + n.toNat) : (OpcodeRow.mk name p 0xF00F).selects (formatXYN t x y n) = true := by
  refine selects_of_toNat ((and_mask _ 4 _ (.inl rfl) rfl).trans ?_)
  rw [formatXYN_toNat]
  omega

theorem selects_X {name : String} {p : Word} (t : Nibble) (x : Reg) (low : Byte)
    (h : p.toNat = t.toNat * 4096 + low.toNat) : (OpcodeRow.mk name p 0xF0FF).selects (formatXKK t x low) = true := by
  refine selects_of_toNat ((and_mask _ 8 _ (.inr rfl) rfl).trans ?_)
  rw [formatXKK_toNat]
  omega

theorem cls : Statement .cls := rfl
theorem ret : Statement .ret := rfl
theorem jp (nnn : Addr) : Statement (.jp nnn) := selects_NNN _ _ rfl
theorem call (nnn : Addr) : Statement (.call nnn) := selects_NNN _ _ rfl
theorem seImm (x : Reg) (kk : Byte) : Statement (.seImm x kk) := selects_XKK _ _ _ rfl
theorem sneImm (x : Reg) (kk : Byte) : Statement (.sneImm x kk) := selects_XKK _ _ _ rfl
theorem seReg (x : Reg) (y : Reg) : Statement (.seReg x y) := selects_XY _ _ _ _ rfl
theorem ldImm (x : Reg) (kk : Byte) : Statement (.ldImm x kk) := selects_XKK _ _ _ rfl
theorem addImm (x : Reg) (kk : Byte) : Statement (.addImm x kk) := selects_XKK _ _ _ rfl
theorem ldReg (x : Reg) (y : Reg) : Statement (.ldReg x y) := selects_XY _ _ _ _ rfl
theorem orReg (x : Reg) (y : Reg) : Statement (.orReg x y) := selects_XY _ _ _ _ rfl
theorem andReg (x : Reg) (y : Reg) : Statement (.andReg x y) := selects_XY _ _ _ _ rfl
theorem xorReg (x : Reg) (y : Reg) : Statement (.xorReg x y) := selects_XY _ _ _ _ rfl
theorem addReg (x : Reg) (y : Reg) : Statement (.addReg x y) := selects_XY _ _ _ _ rfl
theorem subReg (x : Reg) (y : Reg) : Statement (.subReg x y) := selects_XY _ _ _ _ rfl
theorem shr (x : Reg) (y : Reg) : Statement (.shr x y) := selects_XY _ _ _ _ rfl
theorem subnReg (x : Reg) (y : Reg) : Statement (.subnReg x y) := selects_XY _ _ _ _ rfl
theorem shl (x : Reg) (y : Reg) : Statement (.shl x y) := selects_XY _ _ _ _ rfl
theorem sneReg (x : Reg) (y : Reg) : Statement (.sneReg x y) := selects_XY _ _ _ _ rfl
theorem ldI (nnn : Addr) : Statement (.ldI nnn) := selects_NNN _ _ rfl
theorem jpV0 (nnn : Addr) : Statement (.jpV0 nnn) := selects_NNN _ _ rfl
theorem rnd (x : Reg) (kk : Byte) : Statement (.rnd x kk) := selects_XKK _ _ _ rfl
theorem drw (x : Reg) (y : Reg) (n : Nibble) : Statement (.drw x y n) := selects_XYN _ _ _ _ rfl
theorem skp (x : Reg) : Statement (.skp x) := selects_X _ _ _ rfl
theorem sknp (x : Reg) : Statement (.sknp x) := selects_X _ _ _ rfl
theorem ldVxDt (x : Reg) : Statement (.ldVxDt x) := selects_X _ _ _ rfl
theorem ldVxKey (x : Reg) : Statement (.ldVxKey x) := selects_X _ _ _ rfl
theorem ldDtVx (x : Reg) : Statement (.ldDtVx x) := selects_X _ _ _ rfl
theorem ldStVx (x : Reg) : Statement (.ldStVx x) := selects_X _ _ _ rfl
theorem addI (x : Reg) : Statement (.addI x) := selects_X _ _ _ rfl
theorem ldFont (x : Reg) : Statement (.ldFont x) := selects_X _ _ _ rfl
theorem ldBcd (x : Reg) : Statement (.ldBcd x) := selects_X _ _ _ rfl
theorem storeRegs (x : Reg) : Statement (.storeRegs x) := selects_X _ _ _ rfl
theorem loadRegs (x : Reg) : Statement (.loadRegs x) := selects_X _ _ _ rfl

end Sys2Proof.Laws.RowSelects
end

