-- ==== Sys2Proof/Laws/Step.lean ====
section
/-! SUPPORT. What one step can do, said once: the inversion of `step` (spec/50_timer_display_host.md R170, R172), and the
outcomes of `exec`, instruction by instruction. -/

namespace Sys2Proof.Machine

/-! ### The schedule -/

@[simp] theorem takeOperation_halt (s : State) : s.takeOperation.halt = s.halt := rfl
@[simp] theorem takeOperation_pc (s : State) : s.takeOperation.pc = s.pc := rfl
@[simp] theorem takeOperation_memory (s : State) : s.takeOperation.memory = s.memory := rfl

/-- With the CPU alone on the schedule, taking an operation changes nothing. -/
theorem takeOperation_of_steps {s : State} (h : s.schedule = .steps) : s.takeOperation = s := by
  simp only [State.takeOperation, h, Schedule.rest]
  rw [← h]

theorem nextOperation_of_free {s : State} {n : Nat} (h : s.schedule = .free n) :
    nextOperation s = scheduledOperation n := by
  simp only [nextOperation, h]

theorem nextOperation_of_steps {s : State} (h : s.schedule = .steps) : nextOperation s = .step := by
  simp only [nextOperation, h]

theorem nextOperation_of_next {s : State} {op : Operation} {rest : Schedule} (h : s.schedule = .next op rest) :
    nextOperation s = op := by
  simp only [nextOperation, h]

/-- The next operation depends on nothing but the schedule. -/
theorem nextOperation_congr {s t : State} (h : t.schedule = s.schedule) : nextOperation t = nextOperation s := by
  simp only [nextOperation, h]

theorem step_halted {s : State} {f : FaultRecord} (h : s.halt = .halted f) :
    step s = performHalted f (nextOperation s) s.takeOperation := by
  simp only [step, performNext, perform, takeOperation_halt, h]

theorem step_running {s : State} (h : s.halt = .running) :
    step s = performRunning (nextOperation s) s.takeOperation := by
  simp only [step, performNext, perform, takeOperation_halt, h]

/-! ### The CPU's cycle -/

/-- The fetched word decodes: the Step is `exec` of the instruction. -/
theorem step_of_willExecute {s : State} {i : Instr} (h : WillExecute s i) : step s = exec i s.takeOperation := by
  obtain ⟨hn, hr, hp, hd⟩ := h
  rw [step_running hr, hn, performRunning, cpuStep, fetch_ok (by simpa using hp)]
  rw [decode_two] at hd
  simp only [takeOperation_memory, takeOperation_pc, hd]

/-- Everything a step that answers a next state can do. -/
theorem step_cases {s t : State} (h : step s = .next t) :
    (ResetIsNext s ∧ ∃ m : Memory, m.wf ∧ t = (resetMachine s.takeOperation).setMemory m) ∨
    (s.halt = .running ∧ (∃ k, nextOperation s = .tick k ∧ t = s.takeOperation.tick k)) ∨
    (s.halt = .running ∧ (∃ k b, nextOperation s = .setKey k b ∧ t = s.takeOperation.setKey k b)) ∨
    (s.halt = .running ∧ nextOperation s = .clearRedraw ∧ t = s.takeOperation.clearRedraw) ∨
    (s.halt = .running ∧ nextOperation s = .step ∧
      ((∃ cause op value, t = s.takeOperation.faulted cause op value) ∨
       (s.pc.toNat ≤ 4094 ∧ t = s.takeOperation.advance) ∨
       ∃ i, WillExecute s i ∧ exec i s.takeOperation = .next t)) := by
  cases hr : s.halt with
  | halted f =>
    rw [step_halted hr] at h
    cases ho : nextOperation s <;> simp only [ho, performHalted, reduceCtorEq] at h
    · cases h
      exact .inl ⟨.inl ho, [], Memory.wf_nil, rfl⟩
    · exact .inl ⟨.inr ⟨_, _, ho⟩, bootMachine_next h⟩
  | running =>
    rw [step_running hr] at h
    cases ho : nextOperation s <;> simp only [ho, performRunning, Host.Outcome.next.injEq] at h
    case tick k => exact .inr (.inl ⟨rfl, k, rfl, h.symm⟩)
    case setKey k b => exact .inr (.inr (.inl ⟨rfl, k, b, rfl, h.symm⟩))
    case clearRedraw => exact .inr (.inr (.inr (.inl ⟨rfl, rfl, h.symm⟩)))
    case reset => exact .inl ⟨.inl ho, [], Memory.wf_nil, h.symm⟩
    case boot image fontFirst => exact .inl ⟨.inr ⟨image, fontFirst, ho⟩, bootMachine_next h⟩
    case step =>
      refine .inr (.inr (.inr (.inr ⟨rfl, rfl, ?_⟩)))
      rcases fetch_cases s.takeOperation with ⟨hp, hf⟩ | ⟨-, hf⟩
      · simp only [cpuStep, hf] at h
        split at h
        · rename_i i hd
          exact .inr (.inr ⟨i, ⟨ho, hr, hp, (decode_two _ _ _).2 hd⟩, h⟩)
        · rcases executeUnrecognized_cases unrecognizedPolicy _ s.takeOperation with hu | hu
          · rw [hu.2] at h
            cases h
            exact .inl ⟨_, _, _, rfl⟩
          · rw [hu.2] at h
            cases h
            exact .inr (.inl ⟨hp, rfl⟩)
      · simp only [cpuStep, hf] at h
        cases h
        exact .inl ⟨_, _, _, rfl⟩

/-! ### Execution -/

/-- No instruction of the table ends a run: each answers a next state, a fault it raises included (R191, R202). -/
theorem exec_next (i : Instr) (s : State) : ∃ t, exec i s = .next t := by
  cases i
  case ret => simp only [exec, execRet]; split <;> exact ⟨_, rfl⟩
  case call => simp only [exec, execCall]; split <;> exact ⟨_, rfl⟩
  case skp => simp only [exec, execSkp]; split <;> exact ⟨_, rfl⟩
  case sknp => simp only [exec, execSknp]; split <;> exact ⟨_, rfl⟩
  case ldVxKey => simp only [exec, execLdVxKey]; split <;> exact ⟨_, rfl⟩
  case drw => simp only [exec, execDrw]; split <;> exact ⟨_, rfl⟩
  case ldBcd => simp only [exec, execLdBcd]; split <;> exact ⟨_, rfl⟩
  case storeRegs => simp only [exec, execStoreRegs]; split <;> exact ⟨_, rfl⟩
  case loadRegs => simp only [exec, execLoadRegs]; split <;> exact ⟨_, rfl⟩
  all_goals exact ⟨_, rfl⟩

end Sys2Proof.Machine
end

