-- ==== Sys2Proof/Tests/Slice0.lean ====
section
/-! SUPPORT. The model's own tests. Expected values are those of spec/95_test_vectors.md (ids in the comments) or are worked
out by hand from the rule named. Then the witnesses: for every obligation with hypotheses, a state that meets them, clause
by clause. -/

namespace Sys2Proof.Tests

open Sys2Proof.Machine

/-! ### Helpers -/

/-- One field of the next state, none where the step stops. -/
def view {α : Type} (f : State → α) : Result → Option α
  | .next s => some (f s)
  | .fault _ => none
  | .refused _ => none

/-- One step of the word `w` placed where `s` fetches. -/
def run (s : State) (w : Nat) : Result := step (s.withFetchWord 16 w)

/-- The reset state with the CPU alone on the schedule. -/
def start : State := { State.reset with schedule := .steps }

/-- `start` with some registers set. -/
def withRegs (l : List (Reg × Byte)) : State := l.foldl (fun s p => s.setV p.1 p.2) start

/-- `start` with bytes at an address and `I` pointing there. -/
def withBytes (a : Nat) (bs : List Byte) : State :=
  { start with i := BitVec.ofNat 16 a, memory := writeBytes [] a bs }

/-- `start` with `SP` live entries. -/
def withSp (n : Fin 17) : State := { start with sp := n, stack := Vector.replicate 16 0x0204 }

/-- `start` with the keys listed held down. -/
def withKeys (l : List (Fin 16)) : State := l.foldl (fun s k => s.setKey k true) start

/-- `start` with one operation before the CPU's. -/
def withNext (op : Operation) : State := { start with schedule := .next op .steps }

/-- A Halted machine (C5). -/
def haltedState : State := start.faulted .stackUnderflow (some 0x00EE) 0

/-- An image of `n` bytes. -/
def image (n : Nat) : List Byte := List.replicate n 1

theorem length_image (n : Nat) : (image n).length = n := List.length_replicate

/-! ### Well-formedness -/

/-- D3. -/
theorem test_wf_refuses_family0 :
    recognized 0x00E1 = false ∧ recognized 0x01E0 = false ∧ recognized 0x0000 = false := by decide

/-- D4. -/
theorem test_wf_refuses_family5 : recognized 0x5121 = false ∧ recognized 0x512F = false := by decide

/-- D6. -/
theorem test_wf_refuses_family8 :
    recognized 0x8128 = false ∧ recognized 0x812D = false ∧ recognized 0x812F = false := by decide

/-- D5. -/
theorem test_wf_refuses_family9 : recognized 0x9121 = false := by decide

/-- D7. -/
theorem test_wf_refuses_familyE :
    recognized 0xE09F = false ∧ recognized 0xE0A0 = false ∧ recognized 0xE19D = false := by decide

/-- D8. -/
theorem test_wf_refuses_familyF :
    recognized 0xF01F = false ∧ recognized 0xF075 = false ∧ recognized 0xF030 = false := by decide

/-- D3 to D8. -/
theorem test_wf_accepts :
    recognized 0x00E0 = true ∧ recognized 0x5120 = true ∧ recognized 0x812E = true ∧ recognized 0xE0A1 = true ∧
    recognized 0xF065 = true := by decide

/-- R171: 3584 bytes fit, 3585 do not. -/
theorem test_wf_image :
    imageFits (image 3584) = true ∧ imageFits (image 3585) = false := by
  simp only [imageFits, length_image]
  decide

/-- The canonical form: rising addresses, no zero byte, nothing past 4095. -/
theorem test_wf_memory :
    Memory.wf [(0x300, 1), (0x301, 2)] ∧ ¬ Memory.wf [(0x301, 2), (0x300, 1)] ∧ ¬ Memory.wf [(0x300, 0)] ∧
    ¬ Memory.wf [(4096, 1)] := by decide

/-- R74: 34 rows, no two alike. -/
theorem test_wf_table_size : opcodeTable.length = 34 ∧ opcodeTable.Nodup := by decide

/-! ### Decoding: each word is written out bit by bit from the encodings of R72 and R74 -/

theorem test_decode_cls : decodeWord 0b0000000011100000 = some .cls := by decide

theorem test_decode_ret : decodeWord 0b0000000011101110 = some .ret := by decide

theorem test_decode_jp : decodeWord 0b0001001000110100 = some (.jp 0x234) := by decide

theorem test_decode_call : decodeWord 0b0010001100000000 = some (.call 0x300) := by decide

theorem test_decode_seImm : decodeWord 0b0011001100101010 = some (.seImm 3 0x2A) := by decide

theorem test_decode_sneImm : decodeWord 0b0100001100101010 = some (.sneImm 3 0x2A) := by decide

theorem test_decode_seReg : decodeWord 0b0101000100100000 = some (.seReg 1 2) := by decide

theorem test_decode_ldImm : decodeWord 0b0110101011111111 = some (.ldImm 0xA 0xFF) := by decide

theorem test_decode_addImm : decodeWord 0b0111000000001010 = some (.addImm 0 0x0A) := by decide

theorem test_decode_ldReg : decodeWord 0b1000000100100000 = some (.ldReg 1 2) := by decide

theorem test_decode_orReg : decodeWord 0b1000000100100001 = some (.orReg 1 2) := by decide

theorem test_decode_andReg : decodeWord 0b1000000100100010 = some (.andReg 1 2) := by decide

theorem test_decode_xorReg : decodeWord 0b1000000100100011 = some (.xorReg 1 2) := by decide

theorem test_decode_addReg : decodeWord 0b1000000100100100 = some (.addReg 1 2) := by decide

theorem test_decode_subReg : decodeWord 0b1000000100100101 = some (.subReg 1 2) := by decide

theorem test_decode_shr : decodeWord 0b1000000100100110 = some (.shr 1 2) := by decide

theorem test_decode_subnReg : decodeWord 0b1000000100100111 = some (.subnReg 1 2) := by decide

theorem test_decode_shl : decodeWord 0b1000000100101110 = some (.shl 1 2) := by decide

theorem test_decode_sneReg : decodeWord 0b1001000100100000 = some (.sneReg 1 2) := by decide

theorem test_decode_ldI : decodeWord 0b1010001011110000 = some (.ldI 0x2F0) := by decide

theorem test_decode_jpV0 : decodeWord 0b1011111111111111 = some (.jpV0 0xFFF) := by decide

theorem test_decode_rnd : decodeWord 0b1100001100001111 = some (.rnd 3 0x0F) := by decide

theorem test_decode_drw : decodeWord 0b1101011110100101 = some (.drw 7 0xA 5) := by decide

theorem test_decode_skp : decodeWord 0b1110010010011110 = some (.skp 4) := by decide

theorem test_decode_sknp : decodeWord 0b1110010010100001 = some (.sknp 4) := by decide

theorem test_decode_ldVxDt : decodeWord 0b1111010100000111 = some (.ldVxDt 5) := by decide

theorem test_decode_ldVxKey : decodeWord 0b1111011000001010 = some (.ldVxKey 6) := by decide

theorem test_decode_ldDtVx : decodeWord 0b1111010100010101 = some (.ldDtVx 5) := by decide

theorem test_decode_ldStVx : decodeWord 0b1111010100011000 = some (.ldStVx 5) := by decide

theorem test_decode_addI : decodeWord 0b1111001000011110 = some (.addI 2) := by decide

theorem test_decode_ldFont : decodeWord 0b1111001100101001 = some (.ldFont 3) := by decide

theorem test_decode_ldBcd : decodeWord 0b1111010000110011 = some (.ldBcd 4) := by decide

theorem test_decode_storeRegs : decodeWord 0b1111001001010101 = some (.storeRegs 2) := by decide

theorem test_decode_loadRegs : decodeWord 0b1111001001100101 = some (.loadRegs 2) := by decide

/-- D2: the high byte first, the rest given back. -/
theorem test_decode_big_endian : decode [0xA2, 0xF0, 0x12] = .ok (.ldI 0x2F0, [0x12]) := rfl

/-- A single byte and an unrecognized word are refused by name. -/
theorem test_decode_rejects :
    decode [0xA2] = .error .truncated ∧ decode [0x51, 0x21] = .error (.unrecognized 0x5121) := ⟨rfl, rfl⟩

/-! ### Instructions, at most two tests each -/

/-- G1. -/
theorem test_cls :
    view (fun t => (t.pix, t.redraw, t.v[15]))
      (run { withRegs [(15, 3)] with pix := Vector.replicate 32 (Vector.replicate 64 true) } 0x00E0) =
      some (State.reset.pix, true, 3) := by decide

/-- C4. -/
theorem test_ret :
    view (fun t => (t.sp, t.pc)) (run { withSp 1 with pc := 0x300 } 0x00EE) = some (0, 0x204) := by decide

/-- C5. -/
theorem test_ret_underflow :
    view (fun t => (t.halt, t.pc, t.sp)) (run State.reset 0x00EE) =
      some (.halted ⟨.stackUnderflow, 0x200, some 0x00EE, 0⟩, 0x200, 0) := by decide

/-- C1. -/
theorem test_jp : view (fun t => t.pc) (run State.reset 0x1234) = some 0x234 := by decide

/-- C2. -/
theorem test_jp_idle : view (fun t => t.pc) (run State.reset 0x1200) = some 0x200 := by decide

/-- C7. -/
theorem test_call_last :
    view (fun t => (t.stack[15], t.sp, t.pc)) (run (withSp 15) 0x2300) = some (0x202, 16, 0x300) := by decide

/-- C6. -/
theorem test_call_overflow :
    view (fun t => (t.halt, t.sp, t.pc)) (run (withSp 16) 0x2300) =
      some (.halted ⟨.stackOverflow, 0x200, some 0x2300, 16⟩, 16, 0x200) := by decide

/-- C14. -/
theorem test_seImm_equal : view (fun t => t.pc) (run (withRegs [(3, 0x2A)]) 0x332A) = some 0x204 := by decide

/-- C15. -/
theorem test_seImm_differs : view (fun t => t.pc) (run (withRegs [(3, 0x2A)]) 0x332B) = some 0x202 := by decide

/-- C16. -/
theorem test_sneImm_equal : view (fun t => t.pc) (run (withRegs [(3, 0x2A)]) 0x432A) = some 0x202 := by decide

/-- C17. -/
theorem test_sneImm_differs : view (fun t => t.pc) (run (withRegs [(3, 0x2A)]) 0x4300) = some 0x204 := by decide

/-- C18. -/
theorem test_seReg_equal : view (fun t => t.pc) (run (withRegs [(1, 7), (2, 7)]) 0x5120) = some 0x204 := by decide

/-- C19. -/
theorem test_seReg_differs : view (fun t => t.pc) (run (withRegs [(1, 7), (2, 8)]) 0x5120) = some 0x202 := by decide

/-- C20. -/
theorem test_sneReg_differs : view (fun t => t.pc) (run (withRegs [(1, 7), (2, 8)]) 0x9120) = some 0x204 := by decide

/-- C21. -/
theorem test_sneReg_self : view (fun t => t.pc) (run (withRegs [(1, 7)]) 0x9110) = some 0x202 := by decide

/-- A1. -/
theorem test_ldImm : view (fun t => (t.v[10], t.pc)) (run State.reset 0x6AFF) = some (0xFF, 0x202) := by decide

/-- A2: the sum wraps, `VF` stays. -/
theorem test_addImm : view (fun t => (t.v[0], t.v[15])) (run (withRegs [(0, 250)]) 0x700A) = some (4, 0) := by decide

/-- A3. -/
theorem test_addImm_keeps_flag :
    view (fun t => (t.v[3], t.v[15])) (run (withRegs [(3, 0xFF), (15, 1)]) 0x7301) = some (0, 1) := by decide

/-- A4. -/
theorem test_ldReg : view (fun t => (t.v[1], t.v[2])) (run (withRegs [(2, 9)]) 0x8120) = some (9, 9) := by decide

/-- A5. -/
theorem test_orReg :
    view (fun t => (t.v[1], t.v[15])) (run (withRegs [(1, 0xF0), (2, 0x0F), (15, 1)]) 0x8121) =
      some (0xFF, 1) := by decide

/-- A6. -/
theorem test_andReg : view (fun t => t.v[1]) (run (withRegs [(1, 0xF0), (2, 0x3C)]) 0x8122) = some 0x30 := by decide

/-- A7. -/
theorem test_xorReg : view (fun t => t.v[1]) (run (withRegs [(1, 0xF0), (2, 0x3C)]) 0x8123) = some 0xCC := by decide

/-- A11. -/
theorem test_addReg_no_carry :
    view (fun t => (t.v[1], t.v[15])) (run (withRegs [(1, 128), (2, 127), (15, 1)]) 0x8124) =
      some (255, 0) := by decide

/-- D11: the sum overwrites the flag. -/
theorem test_addReg_into_flag :
    view (fun t => (t.v[15], t.v[1])) (run (withRegs [(15, 200), (1, 100)]) 0x8F14) = some (44, 100) := by decide

/-- A14 and the source example E2: the flag comes from the operands. -/
theorem test_subReg :
    view (fun t => (t.v[1], t.v[15])) (run (withRegs [(1, 5), (2, 10)]) 0x8125) = some (251, 0) := by decide

/-- D15: `VF` is read before it is written. -/
theorem test_subReg_flag_operand :
    view (fun t => (t.v[1], t.v[15])) (run (withRegs [(1, 5), (15, 10)]) 0x81F5) = some (251, 0) := by decide

/-- A16: `y` is ignored. -/
theorem test_shr :
    view (fun t => (t.v[1], t.v[15], t.v[2])) (run (withRegs [(1, 5), (2, 0xAA)]) 0x8126) =
      some (2, 1, 0xAA) := by decide

/-- D17. -/
theorem test_shr_into_flag : view (fun t => t.v[15]) (run (withRegs [(15, 5)]) 0x8F06) = some 2 := by decide

/-- A20. -/
theorem test_subnReg :
    view (fun t => (t.v[1], t.v[15])) (run (withRegs [(1, 10), (2, 5)]) 0x8127) = some (251, 0) := by decide

/-- A22. -/
theorem test_subnReg_equal :
    view (fun t => (t.v[1], t.v[15])) (run (withRegs [(1, 7), (2, 7)]) 0x8127) = some (0, 1) := by decide

/-- A23: `y` is ignored. -/
theorem test_shl :
    view (fun t => (t.v[1], t.v[15], t.v[2])) (run (withRegs [(1, 0x81), (2, 0x55)]) 0x812E) =
      some (2, 1, 0x55) := by decide

/-- A24. -/
theorem test_shl_no_bit_out :
    view (fun t => (t.v[1], t.v[15])) (run (withRegs [(1, 0x40)]) 0x810E) = some (0x80, 0) := by decide

/-- A26, A28: the drawn byte and `kk`. -/
theorem test_rnd_masks (h : randomByte 0 = 0xB7) : view (fun t => t.v[3]) (run State.reset 0xC30F) = some 0x07 := by
  have e : view (fun t => t.v[3]) (run State.reset 0xC30F) = some (randomByte 0 &&& 0x0F) := rfl
  rw [e, h]
  decide

/-- A27: with `kk = 0` any draw gives 0. -/
theorem test_rnd_zero : view (fun t => t.v[3]) (run State.reset 0xC300) = some 0 := by
  have e : view (fun t => t.v[3]) (run State.reset 0xC300) = some (randomByte 0 &&& 0) := rfl
  rw [e]
  simp

/-- M1. -/
theorem test_ldI : view (fun t => t.i) (run State.reset 0xA2F0) = some 0x2F0 := by decide

/-- C9: not reduced to 12 bits. -/
theorem test_jpV0 : view (fun t => t.pc) (run (withRegs [(0, 0xFF)]) 0xBFFF) = some 0x10FE := by decide

/-- C8. -/
theorem test_jpV0_low : view (fun t => t.pc) (run (withRegs [(0, 0x10)]) 0xB300) = some 0x310 := by decide

/-- G5: on exactly these six cells of rows 31 and 0. -/
theorem test_drw_wraps :
    view (fun t => (t.v[15], [t.pix[31][62], t.pix[31][63], t.pix[31][4], t.pix[31][5], t.pix[0][62], t.pix[0][5], t.pix[31][0]]))
      (run { withBytes 0x300 [0xC3, 0x81] with v := (withRegs [(0, 62), (1, 31)]).v } 0xD012) =
      some (0, [true, true, true, true, true, true, false]) := by decide

/-- G12: the column is the old `VF`. -/
theorem test_drw_flag_operand :
    view (fun t => (t.v[15], t.pix[2][3]))
      (run { withBytes 0x300 [0x80] with v := (withRegs [(15, 3), (0, 2)]).v } 0xDF01) =
      some (0, true) := by decide

/-- C26. -/
theorem test_skp :
    view (fun t => t.pc) (run { withKeys [15] with v := (withRegs [(4, 15)]).v } 0xE49E) =
      some 0x204 := by decide

/-- C27. -/
theorem test_skp_index :
    view (fun t => (t.halt, t.pc)) (run (withRegs [(4, 16)]) 0xE49E) =
      some (.halted ⟨.boundsKeyIndex, 0x200, some 0xE49E, 16⟩, 0x200) := by decide

/-- C23. -/
theorem test_sknp_pressed :
    view (fun t => t.pc) (run { withKeys [10] with v := (withRegs [(4, 10)]).v } 0xE4A1) =
      some 0x202 := by decide

/-- C25. -/
theorem test_sknp_released : view (fun t => t.pc) (run (withRegs [(4, 10)]) 0xE4A1) = some 0x204 := by decide

/-- T3. -/
theorem test_ldVxDt : view (fun t => t.v[5]) (run { State.reset with dt := 0x3C } 0xF507) = some 0x3C := by decide

/-- T10: the least pressed key. -/
theorem test_ldVxKey : view (fun t => (t.v[6], t.pc)) (run (withKeys [3, 9]) 0xF60A) = some (3, 0x202) := by decide

/-- T9. -/
theorem test_ldVxKey_waits :
    view (fun t => (t.v, t.pc)) (run State.reset 0xF60A) = some (State.reset.v, 0x200) := by decide

/-- T8: a program may raise the timer. -/
theorem test_ldDtVx :
    view (fun t => (t.dt, t.st)) (run { withRegs [(5, 200)] with dt := 10 } 0xF515) = some (200, 0) := by decide

/-- T2. -/
theorem test_ldStVx :
    view (fun t => (t.st, t.readSound, t.dt)) (run (withRegs [(5, 8)]) 0xF518) = some (8, true, 0) := by decide

/-- M2. -/
theorem test_addI :
    view (fun t => (t.i, t.v[15])) (run { withRegs [(2, 5)] with i := 0xFFE } 0xF21E) =
      some (0x1003, 0) := by decide

/-- M3. -/
theorem test_addI_wraps :
    view (fun t => t.i) (run { withRegs [(2, 2)] with i := 0xFFFF } 0xF21E) = some 1 := by decide

/-- M5. -/
theorem test_ldFont (h : fontBase = 0x50) : view (fun t => t.i) (run (withRegs [(3, 7)]) 0xF329) = some 0x73 := by
  have e : view (fun t => t.i) (run (withRegs [(3, 7)]) 0xF329) = some (fontBase + 35) := rfl
  rw [e, h]
  decide

/-- M6: the whole byte is used. -/
theorem test_ldFont_byte (h : fontBase = 0) : view (fun t => t.i) (run (withRegs [(3, 0xFF)]) 0xF329) = some 0x4FB := by
  have e : view (fun t => t.i) (run (withRegs [(3, 0xFF)]) 0xF329) = some (fontBase + 0x4FB) := rfl
  rw [e, h]
  decide

/-- M12. -/
theorem test_ldBcd_last :
    view (fun t => (t.memory.read 0xFFD, t.memory.read 0xFFE, t.memory.read 0xFFF))
      (run { withRegs [(4, 157)] with i := 0xFFD } 0xF433) =
      some (1, 5, 7) := by decide

/-- M13. -/
theorem test_ldBcd_fault :
    view (fun t => (t.halt, t.memory.read 0xFFE)) (run { withRegs [(4, 157)] with i := 0xFFE } 0xF433) =
      some (.halted ⟨.boundsMemWrite, 0x200, some 0xF433, 0x1000⟩, 0) := by decide

/-- M14. -/
theorem test_storeRegs :
    view (fun t => (t.memory.read 0x400, t.memory.read 0x402, t.memory.read 0x403, t.i))
      (run { withRegs [(0, 0x11), (1, 0x22), (2, 0x33), (3, 9)] with i := 0x400 } 0xF255) =
      some (0x11, 0x33, 0, 0x400) := by decide

/-- M17. -/
theorem test_storeRegs_fault :
    view (fun t => (t.halt, t.memory.read 0xFF1)) (run { withRegs [(0, 1)] with i := 0xFF1 } 0xFF55) =
      some (.halted ⟨.boundsMemWrite, 0x200, some 0xFF55, 0x1000⟩, 0) := by decide

/-- M18. -/
theorem test_loadRegs :
    view (fun t => (t.v[0], t.v[2], t.v[3], t.i))
      (run { withBytes 0x400 [0x11, 0x22, 0x33] with v := (withRegs [(3, 9)]).v } 0xF265) =
      some (0x11, 0x33, 9, 0x400) := by decide

/-- M19. -/
theorem test_loadRegs_fault :
    view (fun t => t.halt) (run { State.reset with i := 0x1003 } 0xF065) =
      some (.halted ⟨.boundsMemRead, 0x200, some 0xF065, 0x1003⟩) := by decide

/-! ### Cycle, timer engine, host -/

/-- F2, F5: the fetch fault comes before any decoding. -/
theorem test_fetch_fault :
    view (fun t => (t.halt, t.pc)) (step { start with pc := 0xFFF }) =
    some (.halted ⟨.boundsFetch, 0xFFF, none, 0x1000⟩, 0xFFF) := by decide

/-- F1. -/
theorem test_fetch_last : view (fun t => t.pc) (run { State.reset with pc := 0xFFE } 0x1200) = some 0x200 := by decide

/-- C13. -/
theorem test_fetch_odd :
    view (fun t => (t.v[0], t.pc)) (run { State.reset with pc := 0x201 } 0x602A) = some (0x2A, 0x203) := by decide

/-- D9. -/
theorem test_unrecognized_fatal :
    view (fun t => t.halt) (executeUnrecognized .fatal 0x5121 State.reset) =
    some (.halted ⟨.decodeError, 0x200, some 0x5121, 0x5121⟩) := by decide

/-- D10. -/
theorem test_unrecognized_noop :
    view (fun t => t.pc) (executeUnrecognized .noop 0x5121 State.reset) = some 0x202 := by decide

/-- T4. -/
theorem test_tick :
    view (fun t => (t.dt, t.st, t.readSound)) (step { withNext (.tick 3) with dt := 5, st := 2 }) = some (2, 0, false) :=
  by decide

/-- T6. -/
theorem test_tick_floor :
    view (fun t => (t.dt, t.st)) (step { withNext (.tick 1000) with dt := 255, st := 255 }) = some (0, 0) := by decide

/-- T13, calls 1 and 2 (the remainder 0.0033 is 1/300). -/
theorem test_ticks_carry :
    ticksOfElapsed .carry (1 / 100) (1 / 100) = (1, 1 / 300) ∧ ticksOfElapsed .carry 0 (1 / 100) = (0, 1 / 100) :=
  by decide +kernel

/-- T14. -/
theorem test_ticks_truncate : ticksOfElapsed .truncate 0 (1 / 100) = (0, 0) := by decide +kernel

/-- R168. -/
theorem test_setKey :
    view (fun t => (t.key[7], t.key[2])) (step (withNext (.setKey 7 true))) = some (true, false) := by decide

/-- R176. -/
theorem test_clearRedraw :
    view (fun t => t.redraw) (step { withNext .clearRedraw with redraw := true }) = some false := by decide

/-- R204: only Reset leaves Halted. -/
theorem test_reset_leaves_halt :
    view (fun t => (t.halt, t.schedule)) (step { haltedState with schedule := .next .reset .steps }) = some (.running, .steps) :=
  by decide

/-- F6: a Halted machine has no Step. -/
theorem test_halted_stops : step haltedState = .fault (.halted ⟨.stackUnderflow, 0x200, some 0x00EE, 0⟩) := rfl

/-- R205: an image one byte too long is not loaded. -/
theorem test_load_error : loadImage (image 3585) State.reset = .error (.loadError 3585) := by
  simp only [loadImage, imageFits, length_image]
  rfl

/-- R171: the image begins at 0x200. -/
theorem test_load : (match loadImage [0x12, 0x00] State.reset with
    | .ok t => (t.memory.read 0x200, t.memory.read 0x1FF)
    | .error _ => (0, 0)) = (0x12, 0) := by decide

/-- R222: what a machine boots into, when the font fits: the font at `FONT_BASE`, the image at 0x200, `PC` at 0x200. -/
theorem test_boot_next (h : fontBase.toNat + fontData.length ≤ 4096) :
    step (withNext (.boot [0x12, 0x00] true)) =
      .next (start.setMemory (writeBytes (writeBytes [] fontBase.toNat fontData) 0x200 [0x12, 0x00])) := by
  change bootMachine [0x12, 0x00] true _ = _
  rw [bootMachine, bootWith]
  simp only [if_true, loadFont, if_pos h]
  rfl

/-! ### Witnesses

Each shows a state and operands that meet the hypotheses of an obligation, one theorem per clause, at the boundary of the
clause's range. -/

theorem witness_DecodedWordEncodesBack : decodeWord 0x8126 = some (.shr 1 2) ∧ encode (.shr 1 2) = 0x8126 := by decide

theorem witness_RecognizedWordHasOneRow :
    (decodeWord 0xFF65 = some (.loadRegs 15)) ∧ (Instr.loadRegs 0).row ∈ opcodeTable ∧
    (Instr.loadRegs 0).row.selects 0xFF65 = true := by decide

/-- The CPU alone on the schedule. -/
theorem witness_StepRunsDecodedInstruction :
    WillExecute (State.reset.withFetchWord 16 0x1234) (.jp 0x234) ∧
    (State.reset.withFetchWord 16 0x1234).schedule = .steps := ⟨⟨rfl, rfl, by decide, rfl⟩, rfl⟩

/-- A Step, then a free schedule. -/
theorem witness_StepRunsDecodedInstruction_listed :
    WillExecute { State.reset.withFetchWord 16 0x1234 with schedule := .next .step (.free 7) } (.jp 0x234) :=
  ⟨rfl, rfl, by decide, rfl⟩

/-- `PC` = 4095: the first address that does not exist is 4096. -/
theorem witness_FetchOutsideMemoryFaults :
    nextOperation { start with pc := 4095 } = .step ∧ start.halt = .running ∧ 4095 ≤ (4095 : Word).toNat := by decide

/-- `PC` = 4096. -/
theorem witness_FetchOutsideMemoryFaults_above :
    nextOperation { start with pc := 4096 } = .step ∧ start.halt = .running ∧ 4095 < (4096 : Word).toNat := by decide

theorem witness_UnrecognizedWordFollowsPolicy :
    nextOperation (State.reset.withFetchWord 16 0x5121) = .step ∧ (State.reset.withFetchWord 16 0x5121).halt = .running ∧
    (State.reset.withFetchWord 16 0x5121).pc.toNat ≤ 4094 ∧
    wordOfBytes ((State.reset.withFetchWord 16 0x5121).memory.read 0x200)
      ((State.reset.withFetchWord 16 0x5121).memory.read 0x201) = 0x5121 ∧ decodeWord 0x5121 = none := by decide

/-- A Halted machine with a Step next. -/
theorem witness_HaltedMachineIsFrozen :
    haltedState.halt = .halted ⟨.stackUnderflow, 0x200, some 0x00EE, 0⟩ ∧ ¬ ResetIsNext haltedState := by
  refine ⟨rfl, ?_⟩
  rintro (h | ⟨image, fontFirst, h⟩) <;> cases h

/-- Running and Halted. -/
theorem witness_ResetRestoresEverything :
    nextOperation (withNext .reset) = .reset ∧ nextOperation { haltedState with schedule := .next .reset .steps } = .reset :=
  by decide

/-- `n` = 0, any `I` (G9). -/
theorem witness_DrawSpriteFlipsCoveredCells_no_rows :
    (0 : Nibble).toNat = 0 ∨ 0xFFFF + (0 : Nibble).toNat ≤ 4096 := by decide

/-- The last byte of memory as a sprite row, on a cell that is on: the collision clause (G7, G10). -/
theorem witness_DrawSpriteFlipsCoveredCells_collision :
    (withBytes 0xFFF [0x80]).i.toNat + (1 : Nibble).toNat ≤ 4096 ∧
    ∃ (r : Fin 32) (c : Fin 64),
      SpriteCovers { withBytes 0xFFF [0x80] with pix := Vector.replicate 32 (Vector.replicate 64 true) } 0 1 1 r c ∧
      (Vector.replicate 32 (Vector.replicate 64 true) : Display)[r][c] = true :=
  ⟨by decide, 0, 0, ⟨0, by decide, 0, by decide, by decide, by decide, by decide⟩, rfl⟩

/-- On a clear display: the clause without collision. -/
theorem witness_DrawSpriteFlipsCoveredCells_clear : ∀ (r : Fin 32) (c : Fin 64),
    SpriteCovers (withBytes 0xFFF [0x80]) 0 1 1 r c → (withBytes 0xFFF [0x80]).pix[r][c] = false := by
  intro r c _
  simp [withBytes, start, State.reset]

/-- `I` = 4095 and two rows (G11); `I` = 4096. -/
theorem witness_DrawSpriteFlipsCoveredCells_fault :
    (2 : Nibble).toNat ≠ 0 ∧ 4096 < (withBytes 0xFFF []).i.toNat + (2 : Nibble).toNat ∧ (withBytes 0xFFF []).i.toNat ≤ 4095 ∧
    4095 < (withBytes 0x1000 []).i.toNat := by decide

theorem witness_ReturnPopsIntoPc : 0 < (withSp 1).sp.val ∧ 0 < (withSp 16).sp.val ∧ (withSp 0).sp.val = 0 := by decide

/-- The jump to itself (C2); the jump to 0xFFF with the CPU next. -/
theorem witness_JumpWritesTargetOnly :
    (0x200 : Addr).toNat = start.pc.toNat ∧ view (fun t => (t.halt, nextOperation t)) (exec (.jp 0xFFF) start) = some (.running, .step) :=
  by decide

/-- The sums 4095 and 4096, with the CPU next. -/
theorem witness_JumpWithOffsetAddsV0 :
    4094 < (0xF00 : Addr).toNat + (withRegs [(0, 0xFF)]).v[0].toNat ∧ 4095 < (0xF01 : Addr).toNat + (withRegs [(0, 0xFF)]).v[0].toNat ∧
    view (fun t => (t.halt, nextOperation t)) (exec (.jpV0 0xF00) (withRegs [(0, 0xFF)])) = some (.running, .step) :=
  by decide

theorem witness_TimersAreWritten : 0 < (withRegs [(5, 1)]).v[5].toNat ∧ ¬ 0 < State.reset.v[5].toNat := by decide

theorem witness_CallPushesReturnAddress : (withSp 15).sp.val < 16 ∧ (withSp 16).sp.val = 16 := by decide

theorem witness_ReturnAfterCallResumes : (withSp 15).sp.val < 16 := by decide

theorem witness_SkipIfEqualByte :
    (withRegs [(3, 0x2A)]).v[3].toNat = (0x2A : Byte).toNat ∧ (withRegs [(3, 0x2A)]).v[3].toNat ≠ (0x2B : Byte).toNat :=
  by decide

theorem witness_SkipIfNotEqualByte :
    (withRegs [(3, 0xFF)]).v[3].toNat ≠ (0xFE : Byte).toNat ∧ (withRegs [(3, 0xFF)]).v[3].toNat = (0xFF : Byte).toNat :=
  by decide

theorem witness_SkipIfEqualRegisters :
    (withRegs [(1, 7), (2, 7)]).v[1].toNat = (withRegs [(1, 7), (2, 7)]).v[2].toNat ∧
    (withRegs [(1, 7), (2, 8)]).v[1].toNat ≠ (withRegs [(1, 7), (2, 8)]).v[2].toNat ∧ (1 : Fin 16) ≠ 0 := by decide

theorem witness_SkipIfNotEqualRegisters :
    (withRegs [(1, 7), (2, 8)]).v[1].toNat ≠ (withRegs [(1, 7), (2, 8)]).v[2].toNat ∧
    (withRegs [(1, 7), (2, 7)]).v[1].toNat = (withRegs [(1, 7), (2, 7)]).v[2].toNat ∧ (15 : Fin 16) ≠ 0 := by decide

/-- Index 15 pressed and released, index 16. -/
theorem witness_SkipIfKeyPressed :
    (withRegs [(4, 15)]).v[4].toNat = (15 : Fin 16).val ∧ (withKeys [15]).key[15] = true ∧ State.reset.key[15] = false ∧
    15 < (withRegs [(4, 16)]).v[4].toNat := by decide

/-- Index 15 released and pressed, index 16. -/
theorem witness_SkipIfKeyNotPressed :
    (withRegs [(4, 15)]).v[4].toNat = (15 : Fin 16).val ∧ State.reset.key[15] = false ∧ (withKeys [15]).key[15] = true ∧
    15 < (withRegs [(4, 16)]).v[4].toNat := by decide

/-- Sums 256 and 255 (A10, A11). -/
theorem witness_AddRegistersSetsCarry :
    (1 : Reg) ≠ 15 ∧ 255 < (255 : Byte).toNat + (1 : Byte).toNat ∧ ¬ 255 < (128 : Byte).toNat + (127 : Byte).toNat :=
  by decide

/-- Equal operands, and one apart. -/
theorem witness_SubtractSetsNoBorrow :
    (14 : Reg) ≠ 15 ∧ (10 : Byte).toNat ≤ (10 : Byte).toNat ∧ ¬ (11 : Byte).toNat ≤ (10 : Byte).toNat := by decide

theorem witness_ShiftRightSetsBitShiftedOut : (14 : Reg) ≠ 15 := by decide

theorem witness_ReverseSubtractSetsNoBorrow :
    (14 : Reg) ≠ 15 ∧ (10 : Byte).toNat ≤ (10 : Byte).toNat ∧ ¬ (11 : Byte).toNat ≤ (10 : Byte).toNat := by decide

theorem witness_ShiftLeftSetsBitShiftedOut : (14 : Reg) ≠ 15 := by decide

/-- `I` = 4093, 4094 and 4096. -/
theorem witness_DecimalDigitsAreStored :
    (withBytes 4093 []).memory.wf ∧ (withBytes 4093 []).i.toNat + 2 ≤ 4095 ∧
    4095 < (withBytes 4094 []).i.toNat + 2 ∧ (withBytes 4094 []).i.toNat ≤ 4095 ∧ 4095 < (withBytes 4096 []).i.toNat :=
  by decide

/-- `I` = 4080, 4081 and 4096. -/
theorem witness_RegisterGroupIsStored :
    (withBytes 4080 []).memory.wf ∧ (withBytes 4080 []).i.toNat + (15 : Reg).val ≤ 4095 ∧
    4095 < (withBytes 4081 []).i.toNat + (15 : Reg).val ∧ 4095 < (withBytes 4096 []).i.toNat + (0 : Reg).val :=
  by decide

theorem witness_RegisterGroupIsLoaded :
    (withBytes 4080 []).i.toNat + (15 : Reg).val ≤ 4095 ∧ 4095 < (withBytes 4081 []).i.toNat + (15 : Reg).val ∧
    4095 < (withBytes 4096 []).i.toNat + (0 : Reg).val := by decide

theorem witness_StoreThenLoadRestoresRegisters :
    (withBytes 4088 [1]).memory.wf ∧ (withBytes 4088 [1]).i.toNat + (7 : Reg).val ≤ 4095 := by decide

/-- The coordinate registers survive the first draw, and a 1 bit lands on a cell that was off (E4). -/
theorem witness_DrawingTwiceRestoresDisplay :
    (withBytes 0x300 [0xF0]).i.toNat + (1 : Nibble).toNat ≤ 4096 ∧
    view (fun t => (t.v[0], t.v[1])) (exec (.drw 0 1 1) (withBytes 0x300 [0xF0])) = some (0, 0) ∧
    ∃ (r : Fin 32) (c : Fin 64), SpriteCovers (withBytes 0x300 [0xF0]) 0 1 1 r c ∧ (withBytes 0x300 [0xF0]).pix[r][c] = false :=
  ⟨by decide, by decide, 0, 3,
    ⟨0, by decide, 3, by decide, by decide, by decide, by decide⟩, by decide⟩

/-- Key 15 alone, key 0, no key. -/
theorem witness_KeyWaitTakesLeastKey :
    (withKeys [15]).key[15] = true ∧ (∀ j : Fin 16, j < 15 → (withKeys [15]).key[j] = false) ∧
    (withKeys [0, 15]).key[0] = true ∧ ∀ k : Fin 16, State.reset.key[k] = false := by decide

theorem witness_TickLowersBothTimers :
    State.reset.halt = .running ∧
    nextOperation (withNext (.tick 3)) = .tick 3 ∧ nextOperation (withNext (.tick 0)) = .tick 0 := by decide

theorem witness_SetKeyWritesOneEntry :
    (withNext (.setKey 15 true)).halt = .running ∧
    nextOperation (withNext (.setKey 15 true)) = .setKey 15 true ∧ (0 : Fin 16) ≠ 15 := by decide

theorem witness_LoadWritesImageFrom200 :
    State.reset.memory.wf ∧ (image 3584).length ≤ 3584 ∧
    3584 < (image 3585).length := by
  simp only [length_image]
  decide

/-- A full image and a font that ends at 0x1FF. -/
theorem witness_BootLoadsFontAndImageInEitherOrder :
    State.reset.memory.wf ∧ (image 3584).length ≤ 3584 ∧
    (0x1B0 : Word).toNat + (image 80).length ≤ 0x200 := by
  simp only [length_image]
  decide

/-- Boot next, for an image that just fits with a font that ends at 0xFFF and overlaps it, and for one byte more of each. -/
theorem witness_BootLoadsFontAndImageInEitherOrder_step :
    nextOperation (withNext (.boot (image 3584) true)) = .boot (image 3584) true ∧
    nextOperation (withNext (.boot (image 3585) false)) = .boot (image 3585) false ∧
    (0xFB0 : Word).toNat + (image 80).length ≤ 4096 ∧ (image 3584).length ≤ 3584 ∧ 3584 < (image 3585).length ∧
    4096 < (0xFB1 : Word).toNat + (image 80).length := by
  simp only [length_image]
  exact ⟨rfl, rfl, by decide, by decide, by decide, by decide⟩

/-- A free schedule: what comes next from `State.reset` is the open constant, and the schedule moves on by one. -/
theorem test_schedule_is_free : nextOperation State.reset = scheduledOperation 0 ∧
    State.reset.takeOperation.schedule = .free 1 := ⟨rfl, rfl⟩

/-- R180: a free schedule may put a tick between any two Steps. -/
theorem test_schedule_may_tick (h : scheduledOperation 1 = .tick 1) :
    view (fun t => t.dt) (step { start with schedule := .free 1, dt := 9 }) = some 8 := by
  rw [step, performNext, nextOperation_of_free rfl, h]
  decide

/-- `ClearRedraw` next on a Running machine. -/
theorem witness_RedrawRisesAndFallsOnlyAsListed_clear :
    (withNext .clearRedraw).halt = .running ∧ nextOperation (withNext .clearRedraw) = .clearRedraw := by decide

/-- A `RET` on an empty stack: the latch changes. -/
theorem witness_InstructionFaultsArePrecise :
    exec .ret start = .next haltedState ∧ haltedState.halt ≠ start.halt := ⟨rfl, by decide⟩

/-- Each named cause is raised by an instruction it is named for. -/
theorem witness_OnlyNamedInstructionsFault : State.reset.halt = .running ∧
    view (fun t => t.halt) (exec .ret State.reset) = some (.halted ⟨.stackUnderflow, 0x200, some 0x00EE, 0⟩) ∧
    view (fun t => t.halt) (exec (.loadRegs 0) (withBytes 4096 [])) =
      some (.halted ⟨.boundsMemRead, 0x200, some 0xF065, 0x1000⟩) := by decide

/-- A next state that is Running, and one that is not. -/
theorem witness_ProgramCounterFollowsTable : State.reset.halt = .running ∧
    view (fun t => t.halt) (exec (.jp 0x234) State.reset) = some .running ∧
    exec .ret start = .next haltedState ∧ haltedState.halt ≠ .running :=
  ⟨rfl, by decide, rfl, by decide⟩

/-- `State.reset` about to execute `00E0` with a cell on. -/
def clearing : State :=
  { State.reset.withFetchWord 16 0x00E0 with pix := Vector.replicate 32 (Vector.replicate 64 true) }

/-- A Step next is no machine construction. -/
theorem not_resetIsNext {s : State} (e : nextOperation s = .step) : ¬ ResetIsNext s := by
  rintro (h' | ⟨image, fontFirst, h'⟩) <;> rw [e] at h' <;> cases h'

/-- `00E0` changes the display, and its next state is Running. -/
theorem witness_OnlyClearAndDrawChangeDisplay : ¬ ResetIsNext clearing ∧ WillExecute clearing .cls ∧
    view (fun t => (t.pix == clearing.pix, t.halt)) (step clearing) = some (false, .running) :=
  ⟨not_resetIsNext rfl, ⟨rfl, rfl, by decide, rfl⟩, by decide⟩

/-- `redraw` rises, falls by the host, and falls by `Reset`. -/
theorem witness_RedrawRisesAndFallsOnlyAsListed :
    clearing.redraw = false ∧ view (fun t => t.redraw) (step clearing) = some true ∧
    view (fun t => t.redraw) (step { withNext .clearRedraw with redraw := true }) = some false ∧
    view (fun t => t.redraw) (step { withNext .reset with redraw := true }) = some false := by decide

theorem witness_NoInstructionReadsSoundTimerOrRedraw : ∃ t, exec (.ldVxDt 3) State.reset = .next t := ⟨_, rfl⟩

/-- The machine about to store `V[0]` at 0x400. -/
def storing : State := { (withRegs [(0, 0x77)]).setI 0x400 with memory := [(0x200, 0xF0), (0x201, 0x55)] }

/-- The machine about to store digits at 0x400. -/
def storingDigits : State := { (withRegs [(0, 0x77)]).setI 0x400 with memory := [(0x200, 0xF0), (0x201, 0x33)] }

theorem witness_OnlyStoresChangeMemory : ¬ ResetIsNext storing ∧ WillExecute storing (.storeRegs 0) ∧
    view (fun t => t.memory.read 0x400) (step storing) = some 0x77 ∧ storing.memory.read 0x400 = 0 :=
  ⟨not_resetIsNext rfl, ⟨rfl, rfl, by decide, rfl⟩, by decide, by decide⟩

theorem witness_OnlyStoresChangeMemory_digits : ¬ ResetIsNext storingDigits ∧ WillExecute storingDigits (.ldBcd 0) ∧
    view (fun t => t.memory.read 0x402) (step storingDigits) = some 9 ∧ storingDigits.memory.read 0x402 = 0 :=
  ⟨not_resetIsNext rfl, ⟨rfl, rfl, by decide, rfl⟩, by decide, by decide⟩

/-- `DT` changes by `Fx15` and by a tick. -/
theorem witness_TimersChangeOnlyAsListed :
    ¬ ResetIsNext ((withRegs [(5, 60)]).withFetchWord 16 0xF515) ∧
    view (fun t => t.dt) (run (withRegs [(5, 60)]) 0xF515) = some 60 ∧
    view (fun t => (t.dt, t.st)) (step { withNext (.tick 1) with dt := 1, st := 1 }) = some (0, 0) :=
  ⟨not_resetIsNext rfl, by decide, by decide⟩

/-- `ST` changes by `Fx18`. -/
theorem witness_TimersChangeOnlyAsListed_sound :
    ¬ ResetIsNext ((withRegs [(5, 60)]).withFetchWord 16 0xF518) ∧
    view (fun t => t.st) (run (withRegs [(5, 60)]) 0xF518) = some 60 :=
  ⟨not_resetIsNext rfl, by decide⟩

/-- A call writes the slot at `SP` and moves `SP` up; a return moves it down. -/
theorem witness_OnlyCallAndReturnChangeStack :
    ¬ ResetIsNext (State.reset.withFetchWord 16 0x2300) ∧
    view (fun t => (t.stack[0], t.sp)) (run State.reset 0x2300) = some (0x202, 1) ∧
    ¬ ResetIsNext ((withSp 16).withFetchWord 16 0x00EE) ∧ view (fun t => t.sp) (run (withSp 16) 0x00EE) = some 15 :=
  ⟨not_resetIsNext rfl, by decide, not_resetIsNext rfl, by decide⟩

theorem witness_OnlyIndexInstructionsChangeI : ¬ ResetIsNext (State.reset.withFetchWord 16 0xA2F0) ∧
    view (fun t => t.i) (run State.reset 0xA2F0) = some 0x2F0 ∧ State.reset.i ≠ 0x2F0 :=
  ⟨not_resetIsNext rfl, by decide, by decide⟩

/-- A state that meets the invariant with every bound reached, and has a next state. -/
theorem witness_EveryStepKeepsInvariant :
    State.Inv { withSp 2 with stack := (Vector.replicate 16 2).set 1 4096, pc := 0x10FE, memory := [(0, 1), (4095, 1)] } ∧
    ∃ t, step { withSp 2 with stack := (Vector.replicate 16 2).set 1 4096, pc := 0x10FE,
                              memory := [(0, 1), (4095, 1)] } = .next t :=
  ⟨by unfold State.Inv; decide, _, rfl⟩

/-- The same for a `RET` that pops 4096. -/
theorem witness_EveryStepKeepsInvariant_return :
    State.Inv { withSp 2 with stack := (Vector.replicate 16 2).set 1 4096, memory := [(0x201, 0xEE)] } ∧
    view (fun t => t.pc) (step { withSp 2 with stack := (Vector.replicate 16 2).set 1 4096, memory := [(0x201, 0xEE)] }) =
      some 4096 :=
  ⟨by unfold State.Inv; decide, by decide⟩

end Sys2Proof.Tests
end

section
/-! PROOFS. The conditional skips on a byte (spec/41_conditional_skip.md R100 to R102). The skips share one argument: the
answer is `State.skipIf` of a Boolean, so each needs only the two readings of its Boolean. -/

namespace Sys2Proof.Machine

/-! ### What a conditional skip does (R100) -/

/-- A skip writes nothing but `PC`. -/
theorem Unchanged.skipIf (s : State) (c : Bool) (l : Writes) : Unchanged l s (s.skipIf c) :=
  Unchanged.setPc s _ l

theorem skipIf_pc_of_true {s : State} {c : Bool} (h : c = true) : (s.skipIf c).pc = s.pc + 4 := by
  rw [State.skipIf_pc, if_pos h]

theorem skipIf_pc_of_false {s : State} {c : Bool} (h : c = false) : (s.skipIf c).pc = s.pc + 2 := by
  rw [State.skipIf_pc, if_neg (by simp [h])]

/-- The common rule of the family: `P` is the case that skips and `Q` the case that does not. -/
theorem next_skipIf_spec {r : Result} {s : State} {c : Bool} {P Q : Prop} (hr : r = .next (s.skipIf c))
    (hP : P → c = true) (hQ : Q → c = false) :
    ∃ t, r = .next t ∧ (P → t.pc = s.pc + 4) ∧ (Q → t.pc = s.pc + 2) ∧ Unchanged {} s t :=
  ⟨s.skipIf c, hr, fun h => skipIf_pc_of_true (hP h), fun h => skipIf_pc_of_false (hQ h), Unchanged.skipIf s c {}⟩

/-! ### `3xkk` and `4xkk`: their words and their meanings -/

theorem decodeWord_wordXKK_3 (x : Reg) (kk : Byte) : decodeWord (wordXKK 3 x kk) = some (.seImm x kk) := by
  rw [wordXKK_eq]
  simp [decodeWord]

theorem decodeWord_wordXKK_4 (x : Reg) (kk : Byte) : decodeWord (wordXKK 4 x kk) = some (.sneImm x kk) := by
  rw [wordXKK_eq]
  simp [decodeWord]

theorem exec_seImm (x : Reg) (kk : Byte) (s : State) : exec (.seImm x kk) s = .next (s.skipIf (s.v[x] == kk)) := rfl

theorem exec_sneImm (x : Reg) (kk : Byte) (s : State) : exec (.sneImm x kk) s = .next (s.skipIf (s.v[x] != kk)) := rfl

/-! ### The statements -/

/-- Settles O17: the Boolean of `3xkk` is the equality of the two bytes, read as numbers. -/
theorem skipIfEqualByte : Obligations.SkipIfEqualByte := by
  intro x kk s
  refine ⟨decodeWord_wordXKK_3 x kk, next_skipIf_spec (exec_seImm x kk s) (fun heq => ?_) (fun hne => ?_)⟩
  · exact beq_iff_eq.2 (BitVec.eq_of_toNat_eq heq)
  · exact beq_eq_false_iff_ne.2 (BitVec.toNat_ne_iff_ne.1 hne)

/-- Settles O18: the Boolean of `4xkk` is the negation of that equality. -/
theorem skipIfNotEqualByte : Obligations.SkipIfNotEqualByte := by
  intro x kk s
  refine ⟨decodeWord_wordXKK_4 x kk, next_skipIf_spec (exec_sneImm x kk s) (fun hne => ?_) (fun heq => ?_)⟩
  · exact bne_iff_ne.2 (BitVec.toNat_ne_iff_ne.1 hne)
  · exact bne_eq_false_iff_eq.2 (BitVec.eq_of_toNat_eq heq)

end Sys2Proof.Machine
end

section
/-! PROOFS. Loads and the flagless byte add (spec/42_load_and_alu.md R111 to R113). The instructions share one argument: each
writes one register and advances `PC`, so each needs only its word and the byte it writes. -/

namespace Sys2Proof.Machine

/-! ### One register written, then `PC + 2` -/

/-- A register write that advances touches nothing but that register and `PC`. -/
theorem Unchanged.setV_advance (s : State) (x : Reg) (b : Byte) :
    Unchanged { regs := [x] } s (s.setV x b).advance := by
  constructor
  case regs =>
    intro r hr
    rw [State.advance_v, setV_at, if_neg (mt List.mem_singleton.2 hr)]
  all_goals intros; rfl

/-- The common rule of the family: an answer that writes `b` to `V[x]` and advances. -/
theorem next_setV_advance_spec {r : Result} {s : State} {x : Reg} {b : Byte} (hr : r = .next (s.setV x b).advance) :
    ∃ t, r = .next t ∧ t.v[x] = b ∧ t.pc = s.pc + 2 ∧ Unchanged { regs := [x] } s t := by
  refine ⟨(s.setV x b).advance, hr, ?_, rfl, Unchanged.setV_advance s x b⟩
  rw [State.advance_v, setV_at, if_pos rfl]

/-! ### `6xkk`, `7xkk` and `8xy0`: their words and their meanings -/

theorem decodeWord_wordXKK_6 (x : Reg) (kk : Byte) : decodeWord (wordXKK 6 x kk) = some (.ldImm x kk) := by
  rw [wordXKK_eq]
  simp [decodeWord]

theorem decodeWord_wordXKK_7 (x : Reg) (kk : Byte) : decodeWord (wordXKK 7 x kk) = some (.addImm x kk) := by
  rw [wordXKK_eq]
  simp [decodeWord]

/-- A word of family 8 is decoded by its low nibble alone. -/
theorem decodeWord_wordXYN_8 (x y : Reg) (n : Nat) (hn : n < 16) :
    decodeWord (wordXYN 8 x y n) = decodeFamily8 x y (BitVec.ofNat 4 n) := by
  rw [wordXYN_eq 8 x y n hn]
  simp [decodeWord]

theorem exec_ldImm (x : Reg) (kk : Byte) (s : State) : exec (.ldImm x kk) s = .next (s.setV x kk).advance := rfl

theorem exec_addImm (x : Reg) (kk : Byte) (s : State) :
    exec (.addImm x kk) s = .next (s.setV x (sumByte s.v[x] kk)).advance := rfl

theorem exec_ldReg (x y : Reg) (s : State) : exec (.ldReg x y) s = .next (s.setV x s.v[y]).advance := rfl

/-! ### The statements -/

/-- Settles O23: the byte written is `kk`. -/
theorem loadByteIntoRegister : Obligations.LoadByteIntoRegister := by
  intro x kk s
  exact ⟨decodeWord_wordXKK_6 x kk, next_setV_advance_spec (exec_ldImm x kk s)⟩

/-- Settles O24: the byte written is `sumByte`, also when the load before it made both operands `kk`. -/
theorem addByteWrapsWithoutFlag : Obligations.AddByteWrapsWithoutFlag := by
  intro x kk s
  refine ⟨decodeWord_wordXKK_7 x kk, ?_, ?_⟩
  · obtain ⟨t, ht, hv, hpc, hframe⟩ := next_setV_advance_spec (exec_addImm x kk s)
    exact ⟨t, ht, by rw [hv, sumByte_toNat], hpc, hframe⟩
  · obtain ⟨t, ht, hload, -, -⟩ := next_setV_advance_spec (exec_ldImm x kk s)
    obtain ⟨u, hu, hsum, -, -⟩ := next_setV_advance_spec (exec_addImm x kk t)
    exact ⟨t, u, ht, hu, by rw [hsum, sumByte_toNat, hload]⟩

/-- Settles O25: the byte written is the old `V[y]`. -/
theorem copyRegister : Obligations.CopyRegister := by
  intro x y s
  exact ⟨decodeWord_wordXYN_8 x y 0 (by decide), next_setV_advance_spec (exec_ldReg x y s)⟩

end Sys2Proof.Machine
end

section
/-! PROOFS. The load of `I` (spec/43_index_and_memory.md R131). What an answer that writes `I` and advances changes is said
for any word written; `Annn` is the case where that word is its zero-extended operand. -/

namespace Sys2Proof.Machine

/-! ### `I` written, then `PC + 2` -/

/-- A write of `I` that advances touches nothing but `I` and `PC`. -/
theorem Unchanged.setI_advance (s : State) (w : Word) : Unchanged { i := true } s (s.setI w).advance := by
  constructor
  case i => exact fun hlisted => nomatch hlisted
  all_goals intros; rfl

/-- The common rule of the family: an answer that writes `w` to `I` and advances. -/
theorem next_setI_advance_spec {r : Result} {s : State} {w : Word} (hr : r = .next (s.setI w).advance) :
    ∃ t, r = .next t ∧ t.i = w ∧ t.pc = s.pc + 2 ∧ Unchanged { i := true } s t :=
  ⟨(s.setI w).advance, hr, rfl, rfl, Unchanged.setI_advance s w⟩

/-! ### `Annn`: its word and its meaning -/

theorem decodeWord_wordNNN_A (nnn : Addr) : decodeWord (wordNNN 0xA nnn) = some (.ldI nnn) := by
  rw [wordNNN_eq]
  simp [decodeWord]

theorem exec_ldI (nnn : Addr) (s : State) : exec (.ldI nnn) s = .next (s.setI (addrOperand nnn)).advance := rfl

/-! ### The statement -/

/-- Settles O33: the word written to `I` is the operand, whose zero extension keeps its number. -/
theorem loadIndexRegister : Obligations.LoadIndexRegister := by
  intro nnn s
  obtain ⟨t, ht, hi, hpc, hframe⟩ := next_setI_advance_spec (exec_ldI nnn s)
  exact ⟨decodeWord_wordNNN_A nnn, t, ht, by rw [hi, addrOperand_toNat], hpc, hframe⟩

end Sys2Proof.Machine
end

section
/-! PROOFS. The clear of the display (spec/44_display.md R141). What an answer that replaces the display and advances changes
is said for any buffer; `00E0` is the case where every cell of that buffer is off. -/

namespace Sys2Proof.Machine

/-! ### The display replaced, then `PC + 2` -/

/-- A display write that advances touches nothing but the display, `redraw` and `PC`. -/
theorem Unchanged.setDisplay_advance (s : State) (d : Display) :
    Unchanged { pix := true, redraw := true } s (s.setDisplay d).advance := by
  constructor
  case pix => exact fun hlisted => nomatch hlisted
  case redraw => exact fun hlisted => nomatch hlisted
  all_goals intros; rfl

/-- What an answer that replaces the display by `d` and advances leaves. -/
theorem next_setDisplay_advance_spec {r : Result} {s : State} {d : Display}
    (hr : r = .next (s.setDisplay d).advance) :
    ∃ t, r = .next t ∧ t.pix = d ∧ t.redraw = true ∧ t.pc = s.pc + 2 ∧
      Unchanged { pix := true, redraw := true } s t :=
  ⟨(s.setDisplay d).advance, hr, rfl, rfl, rfl, Unchanged.setDisplay_advance s d⟩

/-! ### `00E0`: its word, its meaning and the buffer it writes -/

theorem decodeWord_00E0 : decodeWord 0x00E0 = some .cls := by decide

theorem exec_cls (s : State) : exec .cls s = .next (s.setDisplay clearDisplay).advance := rfl

@[simp] theorem clearDisplay_at (r : Fin 32) (c : Fin 64) : clearDisplay[r][c] = false := by
  simp [clearDisplay]

/-! ### The statement -/

/-- Settles O10: the buffer written is `clearDisplay`, whose cells are all off. -/
theorem clearDisplayTurnsEveryCellOff : Obligations.ClearDisplayTurnsEveryCellOff := by
  intro s
  obtain ⟨t, ht, hpix, hredraw, hpc, hframe⟩ := next_setDisplay_advance_spec (exec_cls s)
  exact ⟨decodeWord_00E0, t, ht, fun r c => by rw [hpix, clearDisplay_at], hredraw, hpc, hframe⟩

end Sys2Proof.Machine
end

section
/-! PROOFS. The writes of the two timers (spec/45_timer_and_key.md R152 and R153). What an answer that writes one timer and
advances changes is said for any byte; `Fx15` and `Fx18` are the case where that byte is `V[x]`. -/

namespace Sys2Proof.Machine

/-! ### One timer written, then `PC + 2` -/

/-- A write of `DT` that advances touches nothing but `DT` and `PC`. -/
theorem Unchanged.setDt_advance (s : State) (b : Byte) : Unchanged { dt := true } s (s.setDt b).advance := by
  constructor
  case dt => exact fun hlisted => nomatch hlisted
  all_goals intros; rfl

/-- A write of `ST` that advances touches nothing but `ST` and `PC`. -/
theorem Unchanged.setSt_advance (s : State) (b : Byte) : Unchanged { st := true } s (s.setSt b).advance := by
  constructor
  case st => exact fun hlisted => nomatch hlisted
  all_goals intros; rfl

/-- What an answer that writes `b` to `DT` and advances leaves. -/
theorem next_setDt_advance_spec {r : Result} {s : State} {b : Byte} (hr : r = .next (s.setDt b).advance) :
    ∃ t, r = .next t ∧ t.dt = b ∧ t.pc = s.pc + 2 ∧ Unchanged { dt := true } s t :=
  ⟨(s.setDt b).advance, hr, rfl, rfl, Unchanged.setDt_advance s b⟩

/-- What an answer that writes `b` to `ST` and advances leaves. -/
theorem next_setSt_advance_spec {r : Result} {s : State} {b : Byte} (hr : r = .next (s.setSt b).advance) :
    ∃ t, r = .next t ∧ t.st = b ∧ t.pc = s.pc + 2 ∧ Unchanged { st := true } s t :=
  ⟨(s.setSt b).advance, hr, rfl, rfl, Unchanged.setSt_advance s b⟩

/-- R164, R177: the tone sounds exactly while `ST` is above 0. -/
theorem readSound_iff (s : State) : s.readSound = true ↔ 0 < s.st.toNat := decide_eq_true_iff

/-! ### `Fx15` and `Fx18`: their words and their meanings -/

/-- A word of family F is decoded by its low byte alone. -/
theorem decodeWord_wordX_F (x : Reg) (low : Nat) (hlow : low < 256) :
    decodeWord (wordX 0xF x low) = decodeFamilyF x (BitVec.ofNat 8 low) := by
  rw [wordX_eq 0xF x low hlow]
  simp [decodeWord]

theorem exec_ldDtVx (x : Reg) (s : State) : exec (.ldDtVx x) s = .next (s.setDt s.v[x]).advance := rfl

theorem exec_ldStVx (x : Reg) (s : State) : exec (.ldStVx x) s = .next (s.setSt s.v[x]).advance := rfl

/-! ### The statement -/

/-- Settles O43: the byte written is `V[x]`, and the tone's condition is read off the `ST` written. -/
theorem timersAreWritten : Obligations.TimersAreWritten := by
  intro x s
  refine ⟨decodeWord_wordX_F x 0x15 (by decide), decodeWord_wordX_F x 0x18 (by decide),
    next_setDt_advance_spec (exec_ldDtVx x s), ?_⟩
  obtain ⟨t, ht, hst, hpc, hframe⟩ := next_setSt_advance_spec (exec_ldStVx x s)
  exact ⟨t, ht, hst, hpc, by rw [readSound_iff, hst], hframe⟩

end Sys2Proof.Machine
end

section
/-! PROOFS. Who writes the display (spec/50_timer_display_host.md R165). `exec_keeps_display` goes through the
instructions, `step_cases` through the other operations; what is left to say is that `00E0` and a `Dxyn` without a fault
set `redraw`. -/

namespace Sys2Proof.Machine

/-! ### What an instruction does to the display -/

/-- R140: each of the other 32 instructions leaves the buffer and the flag, a fault it raises included. -/
theorem exec_keeps_display (i : Instr) (s : State) :
    (i = .cls ∨ ∃ x y n, i = .drw x y n) ∨ ∃ t, exec i s = .next t ∧ t.pix = s.pix ∧ t.redraw = s.redraw := by
  cases i
  case cls => exact .inl (.inl rfl)
  case drw x y n => exact .inl (.inr ⟨x, y, n, rfl⟩)
  all_goals refine .inr ?_
  case ret =>
    obtain ⟨_, hpop⟩ | ⟨_, hpop⟩ := pop_cases s <;> simp only [exec, execRet, hpop] <;> exact ⟨_, rfl, rfl, rfl⟩
  case call =>
    obtain ⟨_, hpush⟩ | ⟨_, hpush⟩ := push_cases s (s.pc + 2) <;> simp only [exec, execCall, hpush] <;>
      exact ⟨_, rfl, rfl, rfl⟩
  case skp | sknp | ldVxKey | ldBcd | storeRegs | loadRegs =>
    simp only [exec, execSkp, execSknp, execLdVxKey, execLdBcd, execStoreRegs, execLoadRegs]
    split <;> exact ⟨_, rfl, rfl, rfl⟩
  all_goals exact ⟨_, rfl, rfl, rfl⟩

/-- An instruction that changes the buffer is `00E0` or `Dxyn`. -/
theorem eq_cls_or_drw_of_pix_ne {i : Instr} {s t : State} (h : exec i s = .next t) (hpix : t.pix ≠ s.pix) :
    i = .cls ∨ ∃ x y n, i = .drw x y n := by
  obtain hi | ⟨u, hu, hkeep, -⟩ := exec_keeps_display i s
  · exact hi
  · cases hu.symm.trans h
    exact absurd hkeep hpix

/-- `Dxyn` faults, or draws: a buffer put in place by `setDisplay`, then `VF`, then `PC`. -/
theorem exec_drw_cases (x y : Reg) (n : Nibble) (s : State) :
    (∃ a, exec (.drw x y n) s = .next (s.faulted .boundsMemRead (some (encode (.drw x y n))) a)) ∨
    ∃ d b, exec (.drw x y n) s = .next ((s.setDisplay d).setV 15 b).advance := by
  simp only [exec, execDrw]
  split
  · exact .inl ⟨_, raiseIn_eq _ _ _ _⟩
  · exact .inr ⟨_, _, rfl⟩

/-- R140: `00E0` and `Dxyn` set `redraw` unless they fault. -/
theorem redraw_of_exec {i : Instr} {s t : State} (hi : i = .cls ∨ ∃ x y n, i = .drw x y n) (h : exec i s = .next t)
    (hrun : t.halt = .running) : t.redraw = true := by
  obtain rfl | ⟨x, y, n, rfl⟩ := hi
  · cases (exec_cls s).symm.trans h
    rfl
  · obtain ⟨a, hfault⟩ | ⟨d, b, hdraw⟩ := exec_drw_cases x y n s
    · cases hfault.symm.trans h
      cases hrun
    · cases hdraw.symm.trans h
      rfl

/-! ### The statement -/

/-- Settles O51: no other operation of `step_cases` writes the buffer, and among the instructions only two do. -/
theorem onlyClearAndDrawChangeDisplay : Obligations.OnlyClearAndDrawChangeDisplay := by
  intro s t hstep hreset
  constructor
  · intro hpix
    obtain ⟨hr, -⟩ | ⟨-, k, -, rfl⟩ | ⟨-, k, b, -, rfl⟩ | ⟨-, -, rfl⟩ |
      ⟨-, -, ⟨cause, op, value, rfl⟩ | ⟨-, rfl⟩ | ⟨i, hw, hexec⟩⟩ := step_cases hstep
    · exact absurd hr hreset
    -- a tick, a key write, a flag clear, a fault and an ignored word keep the buffer
    iterate 5 exact absurd rfl hpix
    · obtain rfl | ⟨x, y, n, rfl⟩ := eq_cls_or_drw_of_pix_ne hexec hpix
      · exact .inl hw
      · exact .inr ⟨x, y, n, hw⟩
  · rintro hrun (hw | ⟨x, y, n, hw⟩)
    · exact redraw_of_exec (.inl rfl) ((step_of_willExecute hw).symm.trans hstep) hrun
    · exact redraw_of_exec (.inr ⟨x, y, n, rfl⟩) ((step_of_willExecute hw).symm.trans hstep) hrun

end Sys2Proof.Machine
end

section
/-! PROOFS. The host's write of the input latch (spec/50_timer_display_host.md R168). -/

namespace Sys2Proof.Machine

/-! ### One key written -/

/-- One entry of the latch after one key write. -/
theorem setKey_at (s : State) (k j : Fin 16) (b : Bool) : (s.setKey k b).key[j] = if j = k then b else s.key[j] := by
  rw [State.setKey_key, Fin.getElem_fin, Vector.getElem_set]
  exact if_congr (by rw [Fin.ext_iff, eq_comm]) rfl rfl

/-- A key write touches nothing but the latch. -/
theorem Unchanged.setKey (s : State) (k : Fin 16) (b : Bool) : Unchanged { key := true } s (s.setKey k b) := by
  constructor
  case key => exact fun hlisted => nomatch hlisted
  all_goals intros; rfl

/-- On a Running machine the step of `SetKey(k, b)` is the key write, its own operation taken off the schedule. -/
theorem step_setKey {s : State} {k : Fin 16} {b : Bool} (hrun : s.halt = .running)
    (hop : nextOperation s = .setKey k b) : step s = .next (s.takeOperation.setKey k b) := by
  rw [step_running hrun, hop, performRunning]

/-! ### The statement -/

/-- Settles O45: the step is `State.setKey`, and `setKey_at` reads the written entry and the others. -/
theorem setKeyWritesOneEntry : Obligations.SetKeyWritesOneEntry := by
  intro s k b hrun hop
  refine ⟨s.takeOperation.setKey k b, step_setKey hrun hop, ?_, fun j hj => ?_, rfl, Unchanged.setKey _ k b⟩
  · rw [setKey_at, if_pos rfl]
  · rw [setKey_at, if_neg hj, State.takeOperation_key]

end Sys2Proof.Machine
end

section
/-! PROOFS. The decoder and the encoder are inverse to each other, and the rows of the opcode table are disjoint
(spec/30_encoding.md R72 to R75). A word is put together again from its fields, format by format; the row lemmas are the
converse of those of `Laws.RowSelects`. -/

namespace Sys2Proof

/-! ### A word is its fields (R72) -/

theorem formatNNN_fields {op : Word} {t : Nibble} (ht : (fieldT op).toNat = t.toNat) :
    formatNNN t (fieldNNN op) = op := by
  rw [fieldT_toNat] at ht
  apply BitVec.eq_of_toNat_eq
  rw [formatNNN_toNat, fieldNNN_toNat]
  omega

theorem formatXKK_fields {op : Word} {t : Nibble} {kk : Byte} (ht : (fieldT op).toNat = t.toNat)
    (hkk : (fieldKK op).toNat = kk.toNat) : formatXKK t (fieldX op) kk = op := by
  rw [fieldT_toNat] at ht
  rw [fieldKK_toNat] at hkk
  apply BitVec.eq_of_toNat_eq
  rw [formatXKK_toNat, fieldX_val]
  omega

theorem formatXYN_fields {op : Word} {t n : Nibble} (ht : (fieldT op).toNat = t.toNat)
    (hn : (fieldN op).toNat = n.toNat) : formatXYN t (fieldX op) (fieldY op) n = op := by
  rw [fieldT_toNat] at ht
  rw [fieldN_toNat] at hn
  apply BitVec.eq_of_toNat_eq
  rw [formatXYN_toNat, fieldX_val, fieldY_val]
  omega

/-! ### Decoding an encoded instruction -/

/-- No field of an instruction is lost in its word. -/
theorem decodeWord_encode (i : Instr) : decodeWord (encode i) = some i := by
  cases i
  case cls | ret => decide
  case jp | call | ldI | jpV0 => simp [encode, decodeWord]
  case seImm | sneImm | ldImm | addImm | rnd => simp [encode, decodeWord]
  case seReg | sneReg | drw => simp [encode, decodeWord]
  case ldReg | orReg | andReg | xorReg | addReg | subReg | shr | subnReg | shl =>
    simp [encode, decodeWord, decodeFamily8]
  case skp | sknp => simp [encode, decodeWord, decodeFamilyE]
  all_goals simp [encode, decodeWord, decodeFamilyF]

/-- Settles O2: two bytes are decoded as their word, which `decodeWord_encode` reads. -/
theorem encodedInstructionDecodes : Obligations.EncodedInstructionDecodes := by
  intro i rest
  simp only [bytesOfWord, List.cons_append, List.nil_append, decode, wordOfBytes_bytes, decodeWord_encode]

/-! ### Encoding a decoded word -/

theorem encode_of_decodeFamily0 {op : Word} {i : Instr} (h : decodeFamily0 op = some i) : encode i = op := by
  unfold decodeFamily0 at h
  split at h
  case isTrue hop => cases h; exact hop.symm
  case isFalse =>
    split at h
    case isTrue hop => cases h; exact hop.symm
    case isFalse => cases h

theorem encode_of_decodeFamily8 {op : Word} {i : Instr} (ht : (fieldT op).toNat = 0x8)
    (h : decodeFamily8 (fieldX op) (fieldY op) (fieldN op) = some i) : encode i = op := by
  unfold decodeFamily8 at h
  split at h <;> cases h <;> exact formatXYN_fields ht ‹_›

theorem encode_of_decodeFamilyE {op : Word} {i : Instr} (ht : (fieldT op).toNat = 0xE)
    (h : decodeFamilyE (fieldX op) (fieldKK op) = some i) : encode i = op := by
  unfold decodeFamilyE at h
  split at h <;> cases h <;> exact formatXKK_fields ht ‹_›

theorem encode_of_decodeFamilyF {op : Word} {i : Instr} (ht : (fieldT op).toNat = 0xF)
    (h : decodeFamilyF (fieldX op) (fieldKK op) = some i) : encode i = op := by
  unfold decodeFamilyF at h
  split at h <;> cases h <;> exact formatXKK_fields ht ‹_›

/-- Families 5 and 9 fix the low nibble at 0 (D3). -/
theorem formatXYN_fields_of_fieldN_eq_zero {op : Word} {t : Nibble} (ht : (fieldT op).toNat = t.toNat)
    (hn : fieldN op = 0) : formatXYN t (fieldX op) (fieldY op) 0x0 = op :=
  formatXYN_fields ht (congrArg BitVec.toNat hn)

/-- Settles O3: the primary selector names the format, whose fields put the word together again. -/
theorem decodedWordEncodesBack : Obligations.DecodedWordEncodesBack := by
  intro op i h
  unfold decodeWord at h
  split at h
  case h_1 => exact encode_of_decodeFamily0 h
  case h_9 ht => exact encode_of_decodeFamily8 ht h
  case h_15 ht => exact encode_of_decodeFamilyE ht h
  case h_16 =>
    have ht : (fieldT op).toNat = 0xF := by
      have hlt := (fieldT op).isLt
      grind
    exact encode_of_decodeFamilyF ht h
  case h_2 ht | h_3 ht | h_11 ht | h_12 ht => cases h; exact formatNNN_fields ht
  case h_4 ht | h_5 ht | h_7 ht | h_8 ht | h_13 ht => cases h; exact formatXKK_fields ht rfl
  case h_14 ht => cases h; exact formatXYN_fields ht rfl
  case h_6 ht | h_10 ht =>
    split at h
    case isTrue hn => cases h; exact formatXYN_fields_of_fieldN_eq_zero ht hn
    case isFalse => cases h

/-- The decoder and the encoder are inverse to each other. -/
theorem decodeWord_eq_some_iff {op : Word} {i : Instr} : decodeWord op = some i ↔ encode i = op :=
  ⟨decodedWordEncodesBack op i, fun h => h ▸ decodeWord_encode i⟩

/-! ### The rows of the opcode table (R73, R74) -/

theorem and_eq_of_selects {name : String} {p m op : Word} (h : (OpcodeRow.mk name p m).selects op = true) :
    (op &&& m).toNat = p.toNat :=
  congrArg BitVec.toNat (beq_iff_eq.1 h)

theorem fieldT_of_selects {name : String} {p op : Word} {t : Nibble}
    (h : (OpcodeRow.mk name p 0xF000).selects op = true) (hp : p.toNat = t.toNat * 4096) :
    (fieldT op).toNat = t.toNat := by
  have hand := (and_high op).symm.trans (and_eq_of_selects h)
  rw [fieldT_toNat]
  omega

theorem encode_of_selects_NNN {name : String} {p op : Word} {t : Nibble}
    (h : (OpcodeRow.mk name p 0xF000).selects op = true) (hp : p.toNat = t.toNat * 4096) :
    formatNNN t (fieldNNN op) = op :=
  formatNNN_fields (fieldT_of_selects h hp)

theorem encode_of_selects_XKK {name : String} {p op : Word} {t : Nibble}
    (h : (OpcodeRow.mk name p 0xF000).selects op = true) (hp : p.toNat = t.toNat * 4096) :
    formatXKK t (fieldX op) (fieldKK op) = op :=
  formatXKK_fields (fieldT_of_selects h hp) rfl

theorem encode_of_selects_XYN {name : String} {p op : Word} {t : Nibble}
    (h : (OpcodeRow.mk name p 0xF000).selects op = true) (hp : p.toNat = t.toNat * 4096) :
    formatXYN t (fieldX op) (fieldY op) (fieldN op) = op :=
  formatXYN_fields (fieldT_of_selects h hp) rfl

theorem encode_of_selects_XY {name : String} {p op : Word} {t n : Nibble}
    (h : (OpcodeRow.mk name p 0xF00F).selects op = true) (hp : p.toNat = t.toNat * 4096 + n.toNat) :
    formatXYN t (fieldX op) (fieldY op) n = op := by
  have hand := (and_mask op 4 _ (.inl rfl) rfl).symm.trans (and_eq_of_selects h)
  refine formatXYN_fields ?_ ?_
  · rw [fieldT_toNat]
    omega
  · rw [fieldN_toNat]
    omega

theorem encode_of_selects_X {name : String} {p op : Word} {t : Nibble} {low : Byte}
    (h : (OpcodeRow.mk name p 0xF0FF).selects op = true) (hp : p.toNat = t.toNat * 4096 + low.toNat) :
    formatXKK t (fieldX op) low = op := by
  have hand := (and_mask op 8 _ (.inr rfl) rfl).symm.trans (and_eq_of_selects h)
  refine formatXKK_fields ?_ ?_
  · rw [fieldT_toNat]
    omega
  · rw [fieldKK_toNat]
    omega

theorem eq_of_selects_full {name : String} {p op : Word} (h : (OpcodeRow.mk name p 0xFFFF).selects op = true) :
    p = op := by
  have hand : op &&& 0xFFFF = p := beq_iff_eq.1 h
  rw [← hand]
  exact BitVec.and_allOnes

/-- A word selected by an instruction's row is the word of an instruction of that row. -/
theorem exists_encode_of_row_selects {op : Word} (j : Instr) (h : j.row.selects op = true) :
    ∃ i : Instr, i.row = j.row ∧ encode i = op := by
  cases j
  case cls => exact ⟨.cls, rfl, eq_of_selects_full h⟩
  case ret => exact ⟨.ret, rfl, eq_of_selects_full h⟩
  case jp => exact ⟨.jp (fieldNNN op), rfl, encode_of_selects_NNN h rfl⟩
  case call => exact ⟨.call (fieldNNN op), rfl, encode_of_selects_NNN h rfl⟩
  case seImm => exact ⟨.seImm (fieldX op) (fieldKK op), rfl, encode_of_selects_XKK h rfl⟩
  case sneImm => exact ⟨.sneImm (fieldX op) (fieldKK op), rfl, encode_of_selects_XKK h rfl⟩
  case seReg => exact ⟨.seReg (fieldX op) (fieldY op), rfl, encode_of_selects_XY h rfl⟩
  case ldImm => exact ⟨.ldImm (fieldX op) (fieldKK op), rfl, encode_of_selects_XKK h rfl⟩
  case addImm => exact ⟨.addImm (fieldX op) (fieldKK op), rfl, encode_of_selects_XKK h rfl⟩
  case ldReg => exact ⟨.ldReg (fieldX op) (fieldY op), rfl, encode_of_selects_XY h rfl⟩
  case orReg => exact ⟨.orReg (fieldX op) (fieldY op), rfl, encode_of_selects_XY h rfl⟩
  case andReg => exact ⟨.andReg (fieldX op) (fieldY op), rfl, encode_of_selects_XY h rfl⟩
  case xorReg => exact ⟨.xorReg (fieldX op) (fieldY op), rfl, encode_of_selects_XY h rfl⟩
  case addReg => exact ⟨.addReg (fieldX op) (fieldY op), rfl, encode_of_selects_XY h rfl⟩
  case subReg => exact ⟨.subReg (fieldX op) (fieldY op), rfl, encode_of_selects_XY h rfl⟩
  case shr => exact ⟨.shr (fieldX op) (fieldY op), rfl, encode_of_selects_XY h rfl⟩
  case subnReg => exact ⟨.subnReg (fieldX op) (fieldY op), rfl, encode_of_selects_XY h rfl⟩
  case shl => exact ⟨.shl (fieldX op) (fieldY op), rfl, encode_of_selects_XY h rfl⟩
  case sneReg => exact ⟨.sneReg (fieldX op) (fieldY op), rfl, encode_of_selects_XY h rfl⟩
  case ldI => exact ⟨.ldI (fieldNNN op), rfl, encode_of_selects_NNN h rfl⟩
  case jpV0 => exact ⟨.jpV0 (fieldNNN op), rfl, encode_of_selects_NNN h rfl⟩
  case rnd => exact ⟨.rnd (fieldX op) (fieldKK op), rfl, encode_of_selects_XKK h rfl⟩
  case drw => exact ⟨.drw (fieldX op) (fieldY op) (fieldN op), rfl, encode_of_selects_XYN h rfl⟩
  case skp => exact ⟨.skp (fieldX op), rfl, encode_of_selects_X h rfl⟩
  case sknp => exact ⟨.sknp (fieldX op), rfl, encode_of_selects_X h rfl⟩
  case ldVxDt => exact ⟨.ldVxDt (fieldX op), rfl, encode_of_selects_X h rfl⟩
  case ldVxKey => exact ⟨.ldVxKey (fieldX op), rfl, encode_of_selects_X h rfl⟩
  case ldDtVx => exact ⟨.ldDtVx (fieldX op), rfl, encode_of_selects_X h rfl⟩
  case ldStVx => exact ⟨.ldStVx (fieldX op), rfl, encode_of_selects_X h rfl⟩
  case addI => exact ⟨.addI (fieldX op), rfl, encode_of_selects_X h rfl⟩
  case ldFont => exact ⟨.ldFont (fieldX op), rfl, encode_of_selects_X h rfl⟩
  case ldBcd => exact ⟨.ldBcd (fieldX op), rfl, encode_of_selects_X h rfl⟩
  case storeRegs => exact ⟨.storeRegs (fieldX op), rfl, encode_of_selects_X h rfl⟩
  case loadRegs => exact ⟨.loadRegs (fieldX op), rfl, encode_of_selects_X h rfl⟩

/-- An instruction's own row selects its word: the 34 facts of `Laws.RowSelects`. -/
theorem row_selects_encode (i : Instr) : i.row.selects (encode i) = true := by
  cases i
  case cls => exact Laws.RowSelects.cls
  case ret => exact Laws.RowSelects.ret
  case jp => exact Laws.RowSelects.jp _
  case call => exact Laws.RowSelects.call _
  case seImm => exact Laws.RowSelects.seImm _ _
  case sneImm => exact Laws.RowSelects.sneImm _ _
  case seReg => exact Laws.RowSelects.seReg _ _
  case ldImm => exact Laws.RowSelects.ldImm _ _
  case addImm => exact Laws.RowSelects.addImm _ _
  case ldReg => exact Laws.RowSelects.ldReg _ _
  case orReg => exact Laws.RowSelects.orReg _ _
  case andReg => exact Laws.RowSelects.andReg _ _
  case xorReg => exact Laws.RowSelects.xorReg _ _
  case addReg => exact Laws.RowSelects.addReg _ _
  case subReg => exact Laws.RowSelects.subReg _ _
  case shr => exact Laws.RowSelects.shr _ _
  case subnReg => exact Laws.RowSelects.subnReg _ _
  case shl => exact Laws.RowSelects.shl _ _
  case sneReg => exact Laws.RowSelects.sneReg _ _
  case ldI => exact Laws.RowSelects.ldI _
  case jpV0 => exact Laws.RowSelects.jpV0 _
  case rnd => exact Laws.RowSelects.rnd _ _
  case drw => exact Laws.RowSelects.drw _ _ _
  case skp => exact Laws.RowSelects.skp _
  case sknp => exact Laws.RowSelects.sknp _
  case ldVxDt => exact Laws.RowSelects.ldVxDt _
  case ldVxKey => exact Laws.RowSelects.ldVxKey _
  case ldDtVx => exact Laws.RowSelects.ldDtVx _
  case ldStVx => exact Laws.RowSelects.ldStVx _
  case addI => exact Laws.RowSelects.addI _
  case ldFont => exact Laws.RowSelects.ldFont _
  case ldBcd => exact Laws.RowSelects.ldBcd _
  case storeRegs => exact Laws.RowSelects.storeRegs _
  case loadRegs => exact Laws.RowSelects.loadRegs _

/-- Every row of the table is some instruction's. -/
theorem exists_row_eq_of_mem {r : OpcodeRow} (h : r ∈ opcodeTable) : ∃ j : Instr, j.row = r := by
  simp only [opcodeTable, ← List.map_append, List.mem_map] at h
  obtain ⟨j, -, hj⟩ := h
  exact ⟨j, hj⟩

theorem row_mem_opcodeTable (i : Instr) : i.row ∈ opcodeTable := by
  cases i <;> simp [opcodeTable, Instr.row]

/-- A row of the table that selects a word is the row of what the word decodes to. -/
theorem decodeWord_of_selects {op : Word} {r : OpcodeRow} (hr : r ∈ opcodeTable) (h : r.selects op = true) :
    ∃ i : Instr, decodeWord op = some i ∧ i.row = r := by
  obtain ⟨j, rfl⟩ := exists_row_eq_of_mem hr
  obtain ⟨i, hrow, hop⟩ := exists_encode_of_row_selects j h
  exact ⟨i, decodeWord_eq_some_iff.2 hop, hrow⟩

theorem row_selects_of_decodeWord {op : Word} {i : Instr} (h : decodeWord op = some i) : i.row.selects op = true :=
  decodeWord_eq_some_iff.1 h ▸ row_selects_encode i

theorem isSome_decodeWord_iff_recognized (op : Word) : (decodeWord op).isSome = true ↔ recognized op = true := by
  rw [Option.isSome_iff_exists, recognized, List.any_eq_true]
  constructor
  · rintro ⟨i, hi⟩
    exact ⟨i.row, row_mem_opcodeTable i, row_selects_of_decodeWord hi⟩
  · rintro ⟨r, hr, hsel⟩
    obtain ⟨i, hi, -⟩ := decodeWord_of_selects hr hsel
    exact ⟨i, hi⟩

/-- Settles O4: a selecting row is the row of the one instruction the word decodes to, so there is at most one. -/
theorem recognizedWordHasOneRow : Obligations.RecognizedWordHasOneRow := by
  intro op
  refine ⟨Bool.eq_iff_iff.2 (isSome_decodeWord_iff_recognized op),
    fun i hi => ⟨row_mem_opcodeTable i, row_selects_of_decodeWord hi⟩, fun r hr q hq hrs hqs => ?_⟩
  obtain ⟨i, hi, rfl⟩ := decodeWord_of_selects hr hrs
  obtain ⟨j, hj, rfl⟩ := decodeWord_of_selects hq hqs
  cases hi.symm.trans hj
  rfl

/-- Settles O1: each word is evaluated. -/
theorem spelledWordsDecode : Obligations.SpelledWordsDecode := by
  unfold Obligations.SpelledWordsDecode
  decide

end Sys2Proof
end

section
/-! PROOFS. One step as the cycle gives it (spec/50_timer_display_host.md R160, R170, R172, R179): the Step of a Running
machine, the tick of the timer engine, the frozen machine, and the state after reset. -/

namespace Sys2Proof.Machine

/-! ### The Step of a Running machine -/

/-- With the CPU next and Running, the step is the CPU's cycle, its own operation taken off the schedule. -/
theorem step_cpu {s : State} (hop : nextOperation s = .step) (hrun : s.halt = .running) :
    step s = cpuStep s.takeOperation := by
  rw [step_running hrun, hop, performRunning]

/-- A Step with `PC` above 4094 takes the fetch fault, with the first address that does not exist. -/
theorem step_fetch_fault {s : State} (hop : nextOperation s = .step) (hrun : s.halt = .running)
    (hpc : 4094 < s.pc.toNat) :
    step s = .next (s.takeOperation.faulted .boundsFetch none (max s.pc.toNat memSize)) := by
  simp only [step_cpu hop hrun, cpuStep, fetch_error (s := s.takeOperation) hpc, takeFault_eq, takeOperation_pc]

/-- A Step whose two bytes at `PC` decode to nothing. -/
theorem step_unrecognized {s : State} (hop : nextOperation s = .step) (hrun : s.halt = .running)
    (hpc : s.pc.toNat ≤ 4094)
    (hdec : decodeWord (wordOfBytes (s.memory.read s.pc.toNat) (s.memory.read (s.pc.toNat + 1))) = none) :
    step s = executeUnrecognized unrecognizedPolicy
      (wordOfBytes (s.memory.read s.pc.toNat) (s.memory.read (s.pc.toNat + 1))) s.takeOperation := by
  simp only [step_cpu hop hrun, cpuStep, fetch_ok (s := s.takeOperation) hpc, takeOperation_memory, takeOperation_pc,
    hdec]

/-- Settles O5: `step_of_willExecute` names the instruction. -/
theorem stepRunsDecodedInstruction : Obligations.StepRunsDecodedInstruction := by
  intro s i hw
  exact ⟨step_of_willExecute hw, rfl, takeOperation_of_steps⟩

/-- Settles O6: the maximum of `PC` and 4096 is the first address that does not exist. -/
theorem fetchOutsideMemoryFaults : Obligations.FetchOutsideMemoryFaults := by
  intro s hop hrun hpc
  have hvalue : max s.pc.toNat memSize = if 4095 < s.pc.toNat then s.pc.toNat else 4096 := by
    simp only [memSize]
    split <;> omega
  rw [step_fetch_fault hop hrun (by omega), hvalue]

/-- Settles O7: the step takes the open policy, and both policies are said whole. -/
theorem unrecognizedWordFollowsPolicy : Obligations.UnrecognizedWordFollowsPolicy := by
  rintro s op hop hrun hpc rfl hdec
  exact ⟨step_unrecognized hop hrun hpc hdec, takeFault_eq _ _ _ _, s.takeOperation.advance, rfl, rfl, rfl,
    Unchanged.setPc _ _ _⟩

/-! ### Halted machine and reset -/

/-- Settles O8: the four operations that construct no machine stop. -/
theorem haltedMachineIsFrozen : Obligations.HaltedMachineIsFrozen := by
  intro s f hhalt hreset
  rw [step_halted hhalt]
  cases hop : nextOperation s with
  | reset => exact absurd (.inl hop) hreset
  | boot image fontFirst => exact absurd (.inr ⟨image, fontFirst, hop⟩) hreset
  | step | tick | setKey | clearRedraw => rfl

/-- Settles O9: `Reset` is performed alike on a Running and on a Halted machine. -/
theorem resetRestoresEverything : Obligations.ResetRestoresEverything := by
  intro s hop
  cases hhalt : s.halt with
  | running => rw [step_running hhalt, hop]; rfl
  | halted f => rw [step_halted hhalt, hop]; rfl

/-- Settles O58: the vectors of the reset state are constant, the rest is read off its definition. -/
theorem resetLeavesStatedValues : Obligations.ResetLeavesStatedValues := by
  refine ⟨fun r => ?_, rfl, rfl, rfl, fun k => ?_, rfl, rfl, fun k => ?_, fun r c => ?_, rfl, fun _ => rfl, rfl⟩
  all_goals simp [State.reset]

/-- Settles O59: memory is empty, `PC` is 0x200 and no stack entry is live. -/
theorem invariantHoldsAtReset : Obligations.InvariantHoldsAtReset :=
  ⟨Memory.wf_nil, by decide, fun k hk => absurd hk (Nat.not_lt_zero _)⟩

/-! ### The timer engine (R160) -/

/-- A tick by nothing leaves a timer. -/
@[simp] theorem tickByte_zero (t : Byte) : tickByte t 0 = t := by
  apply BitVec.eq_of_toNat_eq
  rw [tickByte_toNat, Nat.sub_zero]

theorem tickByte_tickByte (t : Byte) (a b : Nat) : tickByte (tickByte t a) b = tickByte t (a + b) := by
  apply BitVec.eq_of_toNat_eq
  simp only [tickByte_toNat, Nat.sub_sub]

/-- A tick touches nothing but the timers. -/
theorem Unchanged.tick (s : State) (k : Nat) : Unchanged { dt := true, st := true } s (s.tick k) := by
  constructor
  case dt | st => exact fun hlisted => nomatch hlisted
  all_goals intros; rfl

/-- Settles O44: each timer is lowered by `tickByte`, which adds up. -/
theorem tickLowersBothTimers : Obligations.TickLowersBothTimers := by
  refine ⟨fun s k hrun hop => ?_, fun s => ?_, fun s a b => ?_⟩
  · have hstep : step s = .next (s.takeOperation.tick k) := by rw [step_running hrun, hop, performRunning]
    have hlower (t : Byte) : (tickByte t k).toNat = t.toNat - min t.toNat k := by
      rw [tickByte_toNat]
      omega
    exact ⟨_, hstep, hlower s.dt, hlower s.st, rfl, Unchanged.tick _ k⟩
  · simp only [State.tick, tickByte_zero]
  · simp only [State.tick, tickByte_tickByte]

end Sys2Proof.Machine
end

section
/-! PROOFS. The skips on two registers and on a key (spec/41_conditional_skip.md R103 to R107), and control transfer
(spec/40_control_transfer.md R91 to R94). A skip goes through `next_skipIf_spec`; what a word decodes to is read off the
encoder by `decodeWord_eq_some_iff`. -/

namespace Sys2Proof.Machine

/-! ### Words written as numbers -/

theorem decodeWord_wordNNN {t : Nat} {nnn : Addr} {i : Instr} (h : encode i = formatNNN (BitVec.ofNat 4 t) nnn) :
    decodeWord (wordNNN t nnn) = some i :=
  decodeWord_eq_some_iff.2 (h.trans (wordNNN_eq t nnn).symm)

theorem decodeWord_wordXKK {t : Nat} {x : Reg} {kk : Byte} {i : Instr}
    (h : encode i = formatXKK (BitVec.ofNat 4 t) x kk) : decodeWord (wordXKK t x kk) = some i :=
  decodeWord_eq_some_iff.2 (h.trans (wordXKK_eq t x kk).symm)

theorem encode_skp (x : Reg) : encode (.skp x) = wordX 0xE x 0x9E := (wordX_eq 0xE x 0x9E (by decide)).symm

theorem encode_sknp (x : Reg) : encode (.sknp x) = wordX 0xE x 0xA1 := (wordX_eq 0xE x 0xA1 (by decide)).symm

theorem encode_seReg (x y : Reg) : encode (.seReg x y) = wordXYN 5 x y 0 := (wordXYN_eq 5 x y 0 (by decide)).symm

theorem encode_sneReg (x y : Reg) : encode (.sneReg x y) = wordXYN 9 x y 0 := (wordXYN_eq 9 x y 0 (by decide)).symm

theorem encode_call (nnn : Addr) : encode (.call nnn) = wordNNN 2 nnn := (wordNNN_eq 2 nnn).symm

theorem ofNat_fin_ne_zero {n : Fin 16} (hn : n ≠ 0) : BitVec.ofNat 4 n.val ≠ 0 := by
  intro h
  have hval := congrArg BitVec.toNat h
  rw [BitVec.toNat_ofNat, Nat.mod_eq_of_lt n.isLt] at hval
  exact hn (Fin.ext hval)

/-- Families 5 and 9 recognize no low nibble but 0 (D3). -/
theorem decodeWord_wordXYN_eq_none {t : Nat} (ht : t = 5 ∨ t = 9) (x y : Reg) {n : Fin 16} (hn : n ≠ 0) :
    decodeWord (wordXYN t x y n) = none := by
  have hlow := ofNat_fin_ne_zero hn
  rw [wordXYN_eq t x y n n.isLt]
  rcases ht with rfl | rfl <;> simpa [decodeWord] using hlow

/-! ### Skips on two registers -/

theorem exec_seReg (x y : Reg) (s : State) : exec (.seReg x y) s = .next (s.skipIf (s.v[x] == s.v[y])) := rfl

theorem exec_sneReg (x y : Reg) (s : State) : exec (.sneReg x y) s = .next (s.skipIf (s.v[x] != s.v[y])) := rfl

/-- Settles O19: the Boolean of `5xy0` is the equality of the two registers. -/
theorem skipIfEqualRegisters : Obligations.SkipIfEqualRegisters := by
  intro x y s
  refine ⟨decodeWord_eq_some_iff.2 (encode_seReg x y), fun n hn => decodeWord_wordXYN_eq_none (.inl rfl) x y hn,
    next_skipIf_spec (exec_seReg x y s) (fun heq => ?_) (fun hne => ?_)⟩
  · exact beq_iff_eq.2 (BitVec.eq_of_toNat_eq heq)
  · exact beq_eq_false_iff_ne.2 (BitVec.toNat_ne_iff_ne.1 hne)

/-- Settles O20: the Boolean of `9xy0` is the negation of that equality. -/
theorem skipIfNotEqualRegisters : Obligations.SkipIfNotEqualRegisters := by
  intro x y s
  refine ⟨decodeWord_eq_some_iff.2 (encode_sneReg x y), fun n hn => decodeWord_wordXYN_eq_none (.inr rfl) x y hn,
    next_skipIf_spec (exec_sneReg x y s) (fun hne => ?_) (fun heq => ?_)⟩
  · exact bne_iff_ne.2 (BitVec.toNat_ne_iff_ne.1 hne)
  · exact bne_eq_false_iff_eq.2 (BitVec.eq_of_toNat_eq heq)

/-! ### Skips on a key -/

theorem keyIndex_of_toNat_eq {b : Byte} {k : Fin 16} (h : b.toNat = k.val) : keyIndex b = some k := by
  obtain ⟨_, hk⟩ | ⟨hout, -⟩ := keyIndex_cases b
  · rw [hk]
    exact congrArg some (Fin.ext h)
  · omega

theorem keyIndex_eq_none {b : Byte} (h : 15 < b.toNat) : keyIndex b = none := by
  obtain ⟨hin, -⟩ | ⟨-, hk⟩ := keyIndex_cases b
  · omega
  · exact hk

theorem exec_skp_key {x : Reg} {s : State} {k : Fin 16} (h : s.v[x].toNat = k.val) :
    exec (.skp x) s = .next (s.skipIf s.key[k]) := by
  simp only [exec, execSkp, getV_eq, keyIndex_of_toNat_eq h]

theorem exec_sknp_key {x : Reg} {s : State} {k : Fin 16} (h : s.v[x].toNat = k.val) :
    exec (.sknp x) s = .next (s.skipIf (!s.key[k])) := by
  simp only [exec, execSknp, getV_eq, keyIndex_of_toNat_eq h]

theorem exec_skp_fault {x : Reg} {s : State} (h : 15 < s.v[x].toNat) :
    exec (.skp x) s = .next (s.faulted .boundsKeyIndex (some (encode (.skp x))) s.v[x].toNat) := by
  simp only [exec, execSkp, getV_eq, keyIndex_eq_none h, raiseIn_eq]

theorem exec_sknp_fault {x : Reg} {s : State} (h : 15 < s.v[x].toNat) :
    exec (.sknp x) s = .next (s.faulted .boundsKeyIndex (some (encode (.sknp x))) s.v[x].toNat) := by
  simp only [exec, execSknp, getV_eq, keyIndex_eq_none h, raiseIn_eq]

/-- Settles O21: the Boolean of `Ex9E` is the entry of the latch. -/
theorem skipIfKeyPressed : Obligations.SkipIfKeyPressed := by
  intro x s
  refine ⟨decodeWord_eq_some_iff.2 (encode_skp x), fun k hk => next_skipIf_spec (exec_skp_key hk) id id, fun hout => ?_⟩
  rw [exec_skp_fault hout, encode_skp]

/-- Settles O22: the Boolean of `ExA1` is the negation of that entry. -/
theorem skipIfKeyNotPressed : Obligations.SkipIfKeyNotPressed := by
  intro x s
  refine ⟨decodeWord_eq_some_iff.2 (encode_sknp x), fun k hk => next_skipIf_spec (exec_sknp_key hk) (fun hoff => ?_)
    (fun hon => ?_), fun hout => ?_⟩
  · rw [hoff, Bool.not_false]
  · rw [hon, Bool.not_true]
  · rw [exec_sknp_fault hout, encode_sknp]

/-! ### Jumps -/

theorem exec_jp (nnn : Addr) (s : State) : exec (.jp nnn) s = .next (s.setPc (addrOperand nnn)) := rfl

theorem exec_jpV0 (nnn : Addr) (s : State) :
    exec (.jpV0 nnn) s = .next (s.setPc (addrOperand nnn + byteOperand s.v[0])) := rfl

/-- Writing to `PC` the address it holds changes nothing. -/
theorem setPc_self {s : State} {w : Word} (h : w = s.pc) : s.setPc w = s := by
  rw [h, State.setPc]

/-- The sum of `Bnnn` has 16 bits to spare: it is at most 0x10FE. -/
theorem jumpTarget_toNat (nnn : Addr) (b : Byte) :
    (addrOperand nnn + byteOperand b).toNat = nnn.toNat + b.toNat := by
  rw [BitVec.toNat_add, addrOperand_toNat, byteOperand_toNat]
  omega

/-- Settles O13: the jump is one write of `PC`, and the fetch at 0xFFF is a case of O6. -/
theorem jumpWritesTargetOnly : Obligations.JumpWritesTargetOnly := by
  intro nnn s
  refine ⟨decodeWord_wordNNN rfl, s.setPc (addrOperand nnn), exec_jp nnn s, addrOperand_toNat nnn,
    Unchanged.setPc _ _ _, fun hself => ?_, ?_⟩
  · exact setPc_self (BitVec.eq_of_toNat_eq ((addrOperand_toNat nnn).trans hself))
  · rintro rfl hrun hop
    exact fetchOutsideMemoryFaults _ hop hrun (Nat.le_refl 4095)

/-- Settles O15: the jump is one write of `PC`, and a fetch past memory is a case of O6. -/
theorem jumpWithOffsetAddsV0 : Obligations.JumpWithOffsetAddsV0 := by
  intro nnn s
  have hpc := jumpTarget_toNat nnn s.v[0]
  refine ⟨decodeWord_wordNNN rfl, s.setPc (addrOperand nnn + byteOperand s.v[0]), exec_jpV0 nnn s, hpc,
    Unchanged.setPc _ _ _, fun hout hrun hop => ?_⟩
  rw [fetchOutsideMemoryFaults _ hop hrun (by rw [State.setPc_pc]; omega), State.setPc_pc, hpc]

/-! ### Call and return -/

theorem exec_ret_of_pos {s : State} (h : 0 < s.sp.val) :
    exec .ret s = .next ({ s with sp := ⟨s.sp.val - 1, by omega⟩ }.setPc s.stack[s.sp.val - 1]) := by
  simp only [exec, execRet, pop_of_pos h]

theorem exec_ret_empty {s : State} (h : s.sp.val = 0) :
    exec .ret s = .next (s.faulted .stackUnderflow (some (encode .ret)) 0) := by
  simp only [exec, execRet, pop_empty h, raiseIn_eq]

theorem exec_call_of_lt (nnn : Addr) {s : State} (h : s.sp.val < 16) :
    exec (.call nnn) s = .next ({ s with
      stack := s.stack.set s.sp.val (s.pc + 2), sp := ⟨s.sp.val + 1, by omega⟩ }.setPc (addrOperand nnn)) := by
  simp only [exec, execCall, push_of_lt _ h]

theorem exec_call_full (nnn : Addr) {s : State} (h : s.sp.val = 16) :
    exec (.call nnn) s = .next (s.faulted .stackOverflow (some (encode (.call nnn))) 16) := by
  simp only [exec, execCall, push_full _ h, raiseIn_eq]

/-- A write to the slot at `SP` leaves the other slots. -/
theorem stack_set_other {s : State} {w : Word} (h : s.sp.val < 16) {k : Fin 16} (hk : k.val ∉ [s.sp.val]) :
    (s.stack.set s.sp.val w)[k] = s.stack[k] :=
  Vector.getElem_set_ne h k.isLt fun he => hk (List.mem_singleton.2 he.symm)

/-- Settles O12: the two cases of the pop. -/
theorem returnPopsIntoPc : Obligations.ReturnPopsIntoPc := by
  intro s
  refine ⟨decodeWord_encode .ret, fun hpos => ⟨_, exec_ret_of_pos hpos, Nat.sub_add_cancel hpos, rfl, ?_⟩,
    exec_ret_empty⟩
  constructor
  case sp => exact fun hlisted => nomatch hlisted
  all_goals intros; rfl

/-- Settles O14: the two cases of the push. -/
theorem callPushesReturnAddress : Obligations.CallPushesReturnAddress := by
  intro nnn s
  refine ⟨decodeWord_wordNNN rfl, fun hlt => ⟨_, exec_call_of_lt nnn hlt, Vector.getElem_set_self hlt, rfl,
    addrOperand_toNat nnn, ?_⟩, fun hfull => ?_⟩
  · constructor
    case sp => exact fun hlisted => nomatch hlisted
    case slots => exact fun k hk => stack_set_other hlt hk
    all_goals intros; rfl
  · rw [exec_call_full nnn hfull, encode_call]

/-- Settles O16: the slot the call wrote is the one the return reads. -/
theorem returnAfterCallResumes : Obligations.ReturnAfterCallResumes := by
  intro nnn s hlt
  refine ⟨_, _, exec_call_of_lt nnn hlt, exec_ret_of_pos (Nat.succ_pos _), Vector.getElem_set_self hlt, ?_⟩
  constructor
  case slots => exact fun k hk => stack_set_other hlt hk
  all_goals intros; rfl

end Sys2Proof.Machine
end

section
/-! PROOFS. Arithmetic with a flag, logic and random bytes (spec/42_load_and_alu.md R114 to R122), the timer and key reads
(spec/45_timer_and_key.md R150, R151) and the additions to `I` (spec/43_index_and_memory.md R132, R133). Most go through
`next_setV_advance_spec` and `next_setI_advance_spec`; the five with a flag share a rule of their own. -/

namespace Sys2Proof.Machine

/-! ### A flag and a result written, then `PC + 2` (R110) -/

/-- A flag and a result touch `V[x]`, `VF` and `PC` only. -/
theorem Unchanged.setFlagThenResult_advance (s : State) (x : Reg) (f b : Byte) :
    Unchanged { regs := [x, 15] } s (s.setFlagThenResult x f b).advance := by
  constructor
  case regs =>
    intro r hr
    obtain ⟨hx, hf⟩ : r ≠ x ∧ r ≠ 15 := by simpa using hr
    rw [State.advance_v, setFlagThenResult_at, if_neg hx, if_neg hf]
  all_goals intros; rfl

/-- The common rule of the family: with `x = 15` the result stands in `VF` (D5). -/
theorem next_setFlagThenResult_advance_spec {r : Result} {s : State} {x : Reg} {f b : Byte}
    (hr : r = .next (s.setFlagThenResult x f b).advance) :
    ∃ t, r = .next t ∧ t.v[x] = b ∧ (x ≠ 15 → t.v[15] = f) ∧ t.pc = s.pc + 2 ∧ Unchanged { regs := [x, 15] } s t := by
  refine ⟨_, hr, ?_, fun hx => ?_, rfl, Unchanged.setFlagThenResult_advance s x f b⟩
  · rw [State.advance_v, setFlagThenResult_at, if_pos rfl]
  · exact (setFlagThenResult_at s x 15 f b).trans ((if_neg hx.symm).trans (if_pos rfl))

/-- The same rule, with the result and the flag as numbers. -/
theorem next_setFlagThenResult_advance_toNat {r : Result} {s : State} {x : Reg} {f b : Byte} {flag result : Nat}
    (hr : r = .next (s.setFlagThenResult x f b).advance) (hb : b.toNat = result) (hf : f.toNat = flag) :
    ∃ t, r = .next t ∧ t.v[x].toNat = result ∧ (x ≠ 15 → t.v[15].toNat = flag) ∧ t.pc = s.pc + 2 ∧
      Unchanged { regs := [x, 15] } s t := by
  obtain ⟨t, ht, hresult, hflag, hpc, hframe⟩ := next_setFlagThenResult_advance_spec hr
  exact ⟨t, ht, by rw [hresult, hb], fun hx => by rw [hflag hx, hf], hpc, hframe⟩

theorem exec_addReg (x y : Reg) (s : State) : exec (.addReg x y) s =
    .next (s.setFlagThenResult x (carryFlag s.v[x] s.v[y]) (sumByte s.v[x] s.v[y])).advance := rfl

theorem exec_subReg (x y : Reg) (s : State) : exec (.subReg x y) s =
    .next (s.setFlagThenResult x (noBorrowFlag s.v[x] s.v[y]) (differenceByte s.v[x] s.v[y])).advance := rfl

theorem exec_shr (x y : Reg) (s : State) : exec (.shr x y) s =
    .next (s.setFlagThenResult x (lowBitFlag s.v[x]) (shiftRightByte s.v[x])).advance := rfl

theorem exec_subnReg (x y : Reg) (s : State) : exec (.subnReg x y) s =
    .next (s.setFlagThenResult x (noBorrowFlag s.v[y] s.v[x]) (differenceByte s.v[y] s.v[x])).advance := rfl

theorem exec_shl (x y : Reg) (s : State) : exec (.shl x y) s =
    .next (s.setFlagThenResult x (highBitFlag s.v[x]) (shiftLeftByte s.v[x])).advance := rfl

/-- A difference modulo 256 borrows 256 exactly when the second byte is the larger. -/
theorem differenceByte_toNat_eq_ite (a b : Byte) : (differenceByte a b).toNat =
    if b.toNat ≤ a.toNat then a.toNat - b.toNat else a.toNat + 256 - b.toNat := by
  rw [differenceByte_toNat]
  split <;> omega

/-- Settles O27: the sum, and the carry out of bit 7. -/
theorem addRegistersSetsCarry : Obligations.AddRegistersSetsCarry := fun x y s =>
  ⟨decodeWord_wordXYN_8 x y 4 (by decide), next_setFlagThenResult_advance_toNat (exec_addReg x y s)
    (sumByte_toNat _ _) (carryFlag_toNat _ _)⟩

/-- Settles O28: the difference, and that it borrowed nothing. -/
theorem subtractSetsNoBorrow : Obligations.SubtractSetsNoBorrow := fun x y s =>
  ⟨decodeWord_wordXYN_8 x y 5 (by decide), next_setFlagThenResult_advance_toNat (exec_subReg x y s)
    (differenceByte_toNat_eq_ite _ _) (noBorrowFlag_toNat _ _)⟩

/-- Settles O29: half the byte, and its bit 0. -/
theorem shiftRightSetsBitShiftedOut : Obligations.ShiftRightSetsBitShiftedOut := fun x y s =>
  ⟨decodeWord_wordXYN_8 x y 6 (by decide), next_setFlagThenResult_advance_toNat (exec_shr x y s)
    (shiftRightByte_toNat _) (lowBitFlag_toNat _)⟩

/-- Settles O30: O28 with the operands exchanged. -/
theorem reverseSubtractSetsNoBorrow : Obligations.ReverseSubtractSetsNoBorrow := fun x y s =>
  ⟨decodeWord_wordXYN_8 x y 7 (by decide), next_setFlagThenResult_advance_toNat (exec_subnReg x y s)
    (differenceByte_toNat_eq_ite _ _) (noBorrowFlag_toNat _ _)⟩

/-- Settles O31: twice the byte, and its bit 7. -/
theorem shiftLeftSetsBitShiftedOut : Obligations.ShiftLeftSetsBitShiftedOut := fun x y s =>
  ⟨decodeWord_wordXYN_8 x y 0xE (by decide), next_setFlagThenResult_advance_toNat (exec_shl x y s)
    (shiftLeftByte_toNat _) (highBitFlag_toNat _)⟩

/-! ### Logic and random bytes -/

theorem exec_orReg (x y : Reg) (s : State) : exec (.orReg x y) s = .next (s.setV x (s.v[x] ||| s.v[y])).advance := rfl

theorem exec_andReg (x y : Reg) (s : State) : exec (.andReg x y) s = .next (s.setV x (s.v[x] &&& s.v[y])).advance := rfl

theorem exec_xorReg (x y : Reg) (s : State) : exec (.xorReg x y) s = .next (s.setV x (s.v[x] ^^^ s.v[y])).advance := rfl

theorem exec_rnd (x : Reg) (kk : Byte) (s : State) :
    exec (.rnd x kk) s = .next (s.setV x (randomByte s.draws &&& kk)).countDraw.advance := rfl

/-- Settles O26: the byte written is the operation of `BitVec`, read bit by bit. -/
theorem logicInstructionsWorkBitwise : Obligations.LogicInstructionsWorkBitwise := by
  intro x y s
  refine ⟨decodeWord_wordXYN_8 x y 1 (by decide), decodeWord_wordXYN_8 x y 2 (by decide),
    decodeWord_wordXYN_8 x y 3 (by decide), ?_, ?_, ?_⟩
  · obtain ⟨t, ht, hv, hpc, hframe⟩ := next_setV_advance_spec (exec_orReg x y s)
    exact ⟨t, ht, fun b _ => by rw [hv, BitVec.getLsbD_or], hpc, hframe⟩
  · obtain ⟨t, ht, hv, hpc, hframe⟩ := next_setV_advance_spec (exec_andReg x y s)
    exact ⟨t, ht, fun b _ => by rw [hv, BitVec.getLsbD_and], hpc, hframe⟩
  · obtain ⟨t, ht, hv, hpc, hframe⟩ := next_setV_advance_spec (exec_xorReg x y s)
    exact ⟨t, ht, fun b _ => by rw [hv, BitVec.getLsbD_xor], hpc, hframe⟩

/-- A masked byte has no bit outside its mask. -/
theorem and_mask_and_not_mask (r kk : Byte) : (r &&& kk) &&& ~~~kk = 0 := by
  rw [BitVec.and_assoc, BitVec.and_not_self]
  exact BitVec.and_zero

/-- A drawn byte's write touches the register, the count of draws and `PC` only. -/
theorem Unchanged.setV_countDraw_advance (s : State) (x : Reg) (b : Byte) :
    Unchanged { regs := [x], draws := true } s (s.setV x b).countDraw.advance := by
  constructor
  case regs => exact (Unchanged.setV_advance s x b).regs
  case draws => exact fun hlisted => nomatch hlisted
  all_goals intros; rfl

/-- Settles O32: the byte written is the draw, masked. -/
theorem randomByteIsMasked : Obligations.RandomByteIsMasked := by
  intro x kk s
  have hv : (s.setV x (randomByte s.draws &&& kk)).countDraw.advance.v[x] = randomByte s.draws &&& kk :=
    (setV_at s x x _).trans (if_pos rfl)
  exact ⟨decodeWord_wordXKK rfl, _, exec_rnd x kk s, hv, by rw [hv, and_mask_and_not_mask], rfl, rfl,
    Unchanged.setV_countDraw_advance s x _⟩

/-! ### Timer and key reads -/

theorem exec_ldVxDt (x : Reg) (s : State) : exec (.ldVxDt x) s = .next (s.setV x s.dt).advance := rfl

theorem exec_ldVxKey_pressed (x : Reg) {s : State} {k : Fin 16} (h : s.leastKey = some k) :
    exec (.ldVxKey x) s = .next (s.setV x (BitVec.ofNat 8 k.val)).advance := by
  simp only [exec, execLdVxKey, h]

theorem exec_ldVxKey_waits (x : Reg) {s : State} (h : s.leastKey = none) : exec (.ldVxKey x) s = .next s := by
  simp only [exec, execLdVxKey, h]

/-- Settles O41: the byte written is `DT`. -/
theorem delayTimerIsRead : Obligations.DelayTimerIsRead := fun x s =>
  ⟨decodeWord_wordX_F x 0x07 (by decide), next_setV_advance_spec (exec_ldVxDt x s)⟩

/-- Settles O42: `leastKey` is the least pressed key, and a key's number fits in a byte. -/
theorem keyWaitTakesLeastKey : Obligations.KeyWaitTakesLeastKey := by
  intro x s
  refine ⟨decodeWord_wordX_F x 0x0A (by decide), fun k hon hleast => ?_,
    fun hoff => exec_ldVxKey_waits x (leastKey_eq_none hoff)⟩
  obtain ⟨t, ht, hv, hpc, hframe⟩ := next_setV_advance_spec (exec_ldVxKey_pressed x (leastKey_eq_some hon hleast))
  refine ⟨t, ht, ?_, hpc, hframe⟩
  rw [hv, BitVec.toNat_ofNat]
  omega

/-! ### Additions to `I` -/

theorem exec_addI (x : Reg) (s : State) : exec (.addI x) s = .next (s.setI (s.i + byteOperand s.v[x])).advance := rfl

theorem exec_ldFont (x : Reg) (s : State) : exec (.ldFont x) s = .next (s.setI (glyphAddr s.v[x])).advance := rfl

theorem glyphAddr_toNat (b : Byte) : (glyphAddr b).toNat = (fontBase.toNat + 5 * b.toNat) % 65536 := by
  have hfive : (5 : Word).toNat = 5 := rfl
  rw [glyphAddr, BitVec.toNat_add, BitVec.toNat_mul, byteOperand_toNat, hfive, Nat.add_mod_mod]

/-- Settles O34: the word written to `I` is the 16-bit sum. -/
theorem addToIndexWrapsAt16Bits : Obligations.AddToIndexWrapsAt16Bits := by
  intro x s
  obtain ⟨t, ht, hi, hpc, hframe⟩ := next_setI_advance_spec (exec_addI x s)
  exact ⟨decodeWord_wordX_F x 0x1E (by decide), t, ht, by rw [hi, BitVec.toNat_add, byteOperand_toNat], hpc, hframe⟩

/-- Settles O35: the word written to `I` is `glyphAddr`. -/
theorem fontPointerIsFiveTimesByte : Obligations.FontPointerIsFiveTimesByte := by
  intro x s
  obtain ⟨t, ht, hi, hpc, hframe⟩ := next_setI_advance_spec (exec_ldFont x s)
  exact ⟨decodeWord_wordX_F x 0x29 (by decide), t, ht, by rw [hi, glyphAddr_toNat], hpc, hframe⟩

end Sys2Proof.Machine
end

section
/-! PROOFS. The accesses of `Fx33`, `Fx55` and `Fx65` to memory from `I` (spec/43_index_and_memory.md R134 to R136), and the
loader's image (spec/50_timer_display_host.md R171). Each access checks its addresses first: it faults with the first one
that does not exist, or stores or loads everything. -/

namespace Sys2Proof.Machine

/-! ### The address check -/

/-- The address a fault reports: the first that does not exist (D23). -/
theorem max_memSize (a : Nat) : max a memSize = if a ≤ 4095 then 4096 else a := by
  simp only [memSize]
  split <;> omega

theorem firstOutside_none_of_last {a k : Nat} (h : a + k ≤ 4095) : firstOutside a (k + 1) = none :=
  (firstOutside_none_iff _ _).2 (.inr (Nat.succ_le_succ h))

theorem firstOutside_some_of_last {a k : Nat} (h : 4095 < a + k) :
    firstOutside a (k + 1) = some (if a ≤ 4095 then 4096 else a) := by
  rw [firstOutside_some (Nat.succ_ne_zero k) (Nat.succ_lt_succ h), max_memSize]

/-! ### Bytes stored, then `PC + 2` -/

/-- A frame never speaks of `PC`. -/
theorem Unchanged.advance {w : Writes} {s t : State} (h : Unchanged w s t) : Unchanged w s t.advance :=
  ⟨h.regs, h.i, h.sp, h.slots, h.dt, h.st, h.key, h.pix, h.redraw, h.bytes, h.halt, h.draws, h.schedule⟩

/-- Stores touch their bytes and `PC` only, whatever the memory. -/
theorem Unchanged.setMemory_writeBytes (s : State) (a : Nat) (bs : List Byte) :
    Unchanged { bytes := List.range' a bs.length } s (s.setMemory (writeBytes s.memory a bs)) := by
  constructor
  case bytes =>
    intro k hk
    rw [State.setMemory_memory, read_writeBytes_outside]
    rw [List.mem_range'_1] at hk
    omega
  all_goals intros; rfl

theorem exec_ldBcd_store {x : Reg} {s : State} (h : s.i.toNat + 2 ≤ 4095) : exec (.ldBcd x) s =
    .next (s.setMemory (writeBytes s.memory s.i.toNat (decimalDigits s.v[x]))).advance := by
  simp only [exec, execLdBcd, State.dataAddr, firstOutside_none_of_last h, getV_eq]

theorem exec_ldBcd_fault {x : Reg} {s : State} (h : 4095 < s.i.toNat + 2) : exec (.ldBcd x) s =
    .next (s.faulted .boundsMemWrite (some (encode (.ldBcd x))) (if s.i.toNat ≤ 4095 then 4096 else s.i.toNat)) := by
  simp only [exec, execLdBcd, State.dataAddr, firstOutside_some_of_last h, raiseIn_eq]

theorem exec_storeRegs_store {x : Reg} {s : State} (h : s.i.toNat + x.val ≤ 4095) : exec (.storeRegs x) s =
    .next (s.setMemory (writeBytes s.memory s.i.toNat (s.groupUpTo x))).advance := by
  simp only [exec, execStoreRegs, State.dataAddr, firstOutside_none_of_last h]

theorem exec_storeRegs_fault {x : Reg} {s : State} (h : 4095 < s.i.toNat + x.val) : exec (.storeRegs x) s =
    .next (s.faulted .boundsMemWrite (some (encode (.storeRegs x)))
      (if s.i.toNat ≤ 4095 then 4096 else s.i.toNat)) := by
  simp only [exec, execStoreRegs, State.dataAddr, firstOutside_some_of_last h, raiseIn_eq]

theorem exec_loadRegs_load {x : Reg} {s : State} (h : s.i.toNat + x.val ≤ 4095) : exec (.loadRegs x) s =
    .next (s.setGroup (s.groupFromMemory x)).advance := by
  simp only [exec, execLoadRegs, State.dataAddr, firstOutside_none_of_last h]

theorem exec_loadRegs_fault {x : Reg} {s : State} (h : 4095 < s.i.toNat + x.val) : exec (.loadRegs x) s =
    .next (s.faulted .boundsMemRead (some (encode (.loadRegs x)))
      (if s.i.toNat ≤ 4095 then 4096 else s.i.toNat)) := by
  simp only [exec, execLoadRegs, State.dataAddr, firstOutside_some_of_last h, raiseIn_eq]

theorem encode_ldBcd (x : Reg) : encode (.ldBcd x) = wordX 0xF x 0x33 := (wordX_eq 0xF x 0x33 (by decide)).symm

theorem encode_storeRegs (x : Reg) : encode (.storeRegs x) = wordX 0xF x 0x55 :=
  (wordX_eq 0xF x 0x55 (by decide)).symm

theorem encode_loadRegs (x : Reg) : encode (.loadRegs x) = wordX 0xF x 0x65 := (wordX_eq 0xF x 0x65 (by decide)).symm

/-! ### The digits of `Fx33` -/

/-- A digit of a byte fits in a byte. -/
theorem toNat_ofNat_of_le {d : Nat} (h : d ≤ 255) : (BitVec.ofNat 8 d).toNat = d := by
  rw [BitVec.toNat_ofNat]
  omega

/-- The digit at address `a + k` after a canonical memory took the digits of `b` from `a`. -/
theorem read_writeBytes_decimalDigits {m : Memory} {a : Nat} (b : Byte) (hm : m.wf) (ha : a + 2 ≤ 4095) (k : Nat)
    (hk : k < (decimalDigits b).length) : (writeBytes m a (decimalDigits b)).read (a + k) = (decimalDigits b)[k] :=
  read_writeBytes_inside hm (Nat.succ_le_succ ha) hk

/-- Settles O36: the bytes stored are the digits, each below 256. -/
theorem decimalDigitsAreStored : Obligations.DecimalDigitsAreStored := by
  intro x s hm
  refine ⟨decodeWord_eq_some_iff.2 (encode_ldBcd x), fun hin => ?_, fun hout => by rw [exec_ldBcd_fault hout, encode_ldBcd]⟩
  have hread := read_writeBytes_decimalDigits s.v[x] hm hin
  have hlt := s.v[x].isLt
  refine ⟨_, exec_ldBcd_store hin, ?_, ?_, ?_, rfl,
    (Unchanged.setMemory_writeBytes s s.i.toNat (decimalDigits s.v[x])).advance⟩
  · exact (congrArg BitVec.toNat (hread 0 (by simp))).trans (toNat_ofNat_of_le (by omega))
  · exact (congrArg BitVec.toNat (hread 1 (by simp))).trans (toNat_ofNat_of_le (by omega))
  · exact (congrArg BitVec.toNat (hread 2 (by simp))).trans (toNat_ofNat_of_le (by omega))

/-! ### The register group -/

/-- The byte at address `a + k` after a canonical memory took `V[0]` to `V[x]` from `a`. -/
theorem read_writeBytes_groupUpTo {s : State} {x k : Reg} (hm : s.memory.wf) (hin : s.i.toNat + x.val ≤ 4095)
    (hk : k ≤ x) : (writeBytes s.memory s.i.toNat (s.groupUpTo x)).read (s.i.toNat + k.val) = s.v[k] := by
  have hlen : k.val < (s.groupUpTo x).length := by
    rw [length_groupUpTo]
    exact Nat.lt_succ_of_le hk
  rw [read_writeBytes_inside hm (by rw [length_groupUpTo]; exact Nat.succ_le_succ hin) hlen, getElem_groupUpTo]
  rfl

/-- Settles O37: the bytes stored are the registers. -/
theorem registerGroupIsStored : Obligations.RegisterGroupIsStored := by
  intro x s hm
  refine ⟨decodeWord_eq_some_iff.2 (encode_storeRegs x), fun hin => ?_,
    fun hout => by rw [exec_storeRegs_fault hout, encode_storeRegs]⟩
  refine ⟨_, exec_storeRegs_store hin, fun k hk => read_writeBytes_groupUpTo hm hin hk, rfl, ?_⟩
  exact length_groupUpTo s x ▸ (Unchanged.setMemory_writeBytes s s.i.toNat (s.groupUpTo x)).advance

/-- A write of the register group touches the registers that differ and `PC` only. -/
theorem Unchanged.setGroup_advance {s : State} {g : Vector Byte 16} {l : List Reg}
    (h : ∀ r : Reg, r ∉ l → g[r] = s.v[r]) : Unchanged { regs := l } s (s.setGroup g).advance := by
  constructor
  case regs => exact h
  all_goals intros; rfl

theorem mem_regs_upTo_iff {x r : Reg} : r ∈ (List.finRange 16).filter (· ≤ x) ↔ r ≤ x := by
  rw [List.mem_filter, decide_eq_true_eq, and_iff_right (List.mem_finRange r)]

/-- Settles O38: the registers up to `x` are loaded, the others kept. -/
theorem registerGroupIsLoaded : Obligations.RegisterGroupIsLoaded := by
  intro x s
  refine ⟨decodeWord_eq_some_iff.2 (encode_loadRegs x), fun hin => ?_,
    fun hout => by rw [exec_loadRegs_fault hout, encode_loadRegs]⟩
  exact ⟨_, exec_loadRegs_load hin, fun k hk => (groupFromMemory_at s x k).trans (if_pos hk), rfl,
    Unchanged.setGroup_advance fun r hr =>
      (groupFromMemory_at s x r).trans (if_neg (mt mem_regs_upTo_iff.2 hr))⟩

/-- Settles O39: the load reads the bytes the store wrote, at the same `I`. -/
theorem storeThenLoadRestoresRegisters : Obligations.StoreThenLoadRestoresRegisters := by
  intro x s hm hin
  obtain ⟨-, hstore, -⟩ := registerGroupIsStored x s hm
  obtain ⟨t, ht, hbytes, -, hframe⟩ := hstore hin
  have hi : t.i = s.i := hframe.i rfl
  refine ⟨t, ht, fun g => ?_⟩
  obtain ⟨-, hload, -⟩ := registerGroupIsLoaded x { t with v := g }
  obtain ⟨u, hu, hregs, -, hkeep⟩ := hload (hi ▸ hin)
  refine ⟨u, hu, fun k hk => ?_, fun k hk => hkeep.regs k ?_⟩
  · rw [hregs k hk, hi, hbytes k hk]
  · exact fun hmem => Nat.not_le.2 hk (mem_regs_upTo_iff.1 hmem)

/-! ### The loader's image -/

theorem loadImage_of_le {image : List Byte} {s : State} (h : image.length ≤ 3584) :
    loadImage image s = .ok (s.setMemory (writeBytes s.memory programBase image)) := by
  obtain ⟨-, hok⟩ | ⟨hlong, -⟩ := loadImage_cases image s
  · exact hok
  · omega

theorem loadImage_of_lt {image : List Byte} {s : State} (h : 3584 < image.length) :
    loadImage image s = .error (.loadError image.length) := by
  obtain ⟨hfits, -⟩ | ⟨-, herr⟩ := loadImage_cases image s
  · omega
  · exact herr

/-- An image that fits ends inside memory. -/
theorem programBase_add_le {n : Nat} (h : n ≤ 3584) : programBase + n ≤ memSize := by
  simp only [programBase, memSize]
  omega

/-- Settles O46: the image is stored from 0x200, or nothing is. -/
theorem loadWritesImageFrom200 : Obligations.LoadWritesImageFrom200 := by
  intro image s hm
  refine ⟨fun hfits => ?_, fun hlong => loadImage_of_lt hlong⟩
  exact ⟨_, loadImage_of_le hfits, fun k hk => read_writeBytes_inside hm (programBase_add_le hfits) hk, rfl,
    Unchanged.setMemory_writeBytes s programBase image⟩

end Sys2Proof.Machine
end

section
/-! PROOFS. The sprite draw (spec/44_display.md R142 to R144). `Draw.rows_spec` speaks of coordinates as natural numbers and
of a list of rows; here it is read at the 2048 cells and at the sprite `I` points to. -/

namespace Sys2Proof.Machine

/-! ### The draw of `Dxyn` -/

/-- The draw of `Dxyn` after its last pixel. -/
def State.drawn (s : State) (x y : Reg) (n : Nibble) : Draw :=
  (Draw.mk s.pix false).rows (readBytes s.memory s.i.toNat n.toNat) s.v[y].toNat s.v[x].toNat

theorem exec_drw_draw {x y : Reg} {n : Nibble} {s : State} (h : n.toNat = 0 ∨ s.i.toNat + n.toNat ≤ 4096) :
    exec (.drw x y n) s =
      .next ((s.setDisplay (s.drawn x y n).pix).setV 15 (flagByte (s.drawn x y n).collision)).advance := by
  simp only [exec, execDrw, State.dataAddr, (firstOutside_none_iff _ _).2 h]
  rfl

theorem exec_drw_fault {x y : Reg} {n : Nibble} {s : State} (hn : n.toNat ≠ 0) (h : 4096 < s.i.toNat + n.toNat) :
    exec (.drw x y n) s = .next (s.faulted .boundsMemRead (some (encode (.drw x y n)))
      (if s.i.toNat ≤ 4095 then 4096 else s.i.toNat)) := by
  simp only [exec, execDrw, State.dataAddr, firstOutside_some hn h, max_memSize, raiseIn_eq]

theorem encode_drw (x y : Reg) (n : Nibble) : encode (.drw x y n) = wordXYN 0xD x y n.toNat := by
  rw [wordXYN_eq 0xD x y n.toNat n.isLt, BitVec.ofNat_toNat, BitVec.setWidth_eq]
  rfl

/-- A draw touches the display, `redraw`, `VF` and `PC` only. -/
theorem Unchanged.setDisplay_setV_advance (s : State) (d : Display) (x : Reg) (b : Byte) :
    Unchanged { regs := [x], pix := true, redraw := true } s ((s.setDisplay d).setV x b).advance := by
  constructor
  case regs => exact (Unchanged.setV_advance (s.setDisplay d) x b).regs
  case pix | redraw => exact fun hlisted => nomatch hlisted
  all_goals intros; rfl

/-! ### What was drawn, cell by cell -/

theorem cell_fin (d : Display) (r : Fin 32) (c : Fin 64) : d.cell r.val c.val = d[r][c] := by
  simp only [Display.cell, Nat.mod_eq_of_lt r.isLt, Nat.mod_eq_of_lt c.isLt, Fin.getElem_fin]

/-- A 1 bit of the sprite at `I` lands on a cell. -/
theorem spriteHits_iff_spriteCovers (s : State) (x y : Reg) (n : Nibble) (r c : Nat) :
    SpriteHits (readBytes s.memory s.i.toNat n.toNat) s.v[y].toNat s.v[x].toNat r c ↔
      SpriteCovers s x y n (r % 32) (c % 64) := by
  simp only [SpriteHits, SpriteCovers, RowHits, List.mem_range]
  constructor
  · rintro ⟨row, hrow, hr, col, hcol, hbit, hc⟩
    rw [getElem_readBytes] at hbit
    exact ⟨row, hrow.trans_eq (length_readBytes _ _ _), col, hcol, hr, hc, hbit⟩
  · rintro ⟨row, hrow, col, hcol, hr, hc, hbit⟩
    refine ⟨row, hrow.trans_eq (length_readBytes _ _ _).symm, hr, col, hcol, ?_, hc⟩
    rw [getElem_readBytes]
    exact hbit

theorem spriteHits_fin_iff (s : State) (x y : Reg) (n : Nibble) (r : Fin 32) (c : Fin 64) :
    SpriteHits (readBytes s.memory s.i.toNat n.toNat) s.v[y].toNat s.v[x].toNat r c ↔ SpriteCovers s x y n r c := by
  rw [spriteHits_iff_spriteCovers, Nat.mod_eq_of_lt r.isLt, Nat.mod_eq_of_lt c.isLt]

/-- A sprite has at most 15 rows, which is what `Draw.rows_spec` asks. -/
theorem length_sprite_le (m : Memory) (a : Nat) (n : Nibble) : (readBytes m a n.toNat).length ≤ 32 := by
  rw [length_readBytes]
  omega

/-- A cell is flipped exactly when it is covered. -/
theorem drawn_pix (s : State) (x y : Reg) (n : Nibble) (r : Fin 32) (c : Fin 64) :
    (s.drawn x y n).pix[r][c] = true ↔ (s.pix[r][c] = true ↔ ¬ SpriteCovers s x y n r c) := by
  have hcell := (Draw.rows_spec _ ⟨s.pix, false⟩ s.v[y].toNat s.v[x].toNat (length_sprite_le s.memory s.i.toNat n)).1 r c
  rwa [spriteHits_fin_iff, cell_fin, cell_fin] at hcell

/-- There is a collision exactly when a covered cell was on. -/
theorem drawn_collision (s : State) (x y : Reg) (n : Nibble) :
    (s.drawn x y n).collision = true ↔ ∃ (r : Fin 32) (c : Fin 64), SpriteCovers s x y n r c ∧ s.pix[r][c] = true := by
  refine (Draw.rows_spec _ ⟨s.pix, false⟩ _ _ (length_sprite_le s.memory s.i.toNat n)).2.trans ?_
  simp only [Bool.false_eq_true, false_or]
  constructor
  · rintro ⟨r, c, hhit, hon⟩
    exact ⟨⟨r % 32, Nat.mod_lt _ (by decide)⟩, ⟨c % 64, Nat.mod_lt _ (by decide)⟩,
      (spriteHits_iff_spriteCovers s x y n r c).1 hhit, hon⟩
  · rintro ⟨r, c, hcov, hon⟩
    exact ⟨r, c, (spriteHits_fin_iff s x y n r c).2 hcov, (cell_fin s.pix r c).trans hon⟩

/-! ### The statements -/

/-- Settles O11: the flips and the collision are those of `State.drawn`. -/
theorem drawSpriteFlipsCoveredCells : Obligations.DrawSpriteFlipsCoveredCells := by
  intro x y n s
  refine ⟨decodeWord_eq_some_iff.2 (encode_drw x y n), fun hin => ?_,
    fun hn hout => by rw [exec_drw_fault hn hout, encode_drw]⟩
  have hflag : ((s.setDisplay (s.drawn x y n).pix).setV 15 (flagByte (s.drawn x y n).collision)).advance.v[15] =
      flagByte (s.drawn x y n).collision := (setV_at _ 15 15 _).trans (if_pos rfl)
  refine ⟨_, exec_drw_draw hin, drawn_pix s x y n, fun hon => ?_, fun hoff => ?_, rfl, rfl,
    Unchanged.setDisplay_setV_advance s _ 15 _⟩
  · rw [hflag, (drawn_collision s x y n).2 hon]
    rfl
  · have hnone : (s.drawn x y n).collision = false := by
      rw [← Bool.not_eq_true, drawn_collision]
      rintro ⟨r, c, hcov, hon⟩
      exact Bool.noConfusion ((hoff r c hcov).symm.trans hon)
    rw [hflag, hnone]
    rfl

/-- A sprite covers the same cells in states that agree on its place and its bytes. -/
theorem spriteCovers_congr {s t : State} {x y : Reg} (hx : t.v[x] = s.v[x]) (hy : t.v[y] = s.v[y]) (hi : t.i = s.i)
    (hread : ∀ a, t.memory.read a = s.memory.read a) (n : Nibble) (r c : Nat) :
    SpriteCovers t x y n r c ↔ SpriteCovers s x y n r c := by
  simp only [SpriteCovers, hx, hy, hi, hread]

theorem display_ext {d e : Display} (h : ∀ (r : Fin 32) (c : Fin 64), d[r][c] = true ↔ e[r][c] = true) : d = e :=
  Vector.ext fun r hr => Vector.ext fun c hc => Bool.eq_iff_iff.2 (h ⟨r, hr⟩ ⟨c, hc⟩)

/-- Two flips cancel. -/
theorem iff_not_iff_not (a p : Prop) : ((a ↔ ¬ p) ↔ ¬ p) ↔ a := by
  by_cases p <;> simp [*]

/-- Settles O40: the second draw covers the same cells, and two flips cancel. -/
theorem drawingTwiceRestoresDisplay : Obligations.DrawingTwiceRestoresDisplay := by
  intro x y n s hin
  obtain ⟨-, hdraw, -⟩ := drawSpriteFlipsCoveredCells x y n s
  obtain ⟨t, ht, hpix, -, -, -, -, hframe⟩ := hdraw hin
  refine ⟨t, ht, fun hx hy => ?_⟩
  have hi : t.i = s.i := hframe.i rfl
  have hcov := spriteCovers_congr hx hy hi (fun a => hframe.bytes a List.not_mem_nil) n
  obtain ⟨-, hagain, -⟩ := drawSpriteFlipsCoveredCells x y n t
  obtain ⟨u, hu, hpix', hcollide, -⟩ := hagain (hi ▸ hin)
  refine ⟨u, hu, display_ext fun r c => ?_, ?_⟩
  · rw [hpix', hpix, hcov, iff_not_iff_not]
  · rintro ⟨r, c, hrc, hoff⟩
    have hon : t.pix[r][c] = true := by
      rw [hpix, hoff]
      exact iff_of_false Bool.false_ne_true (not_not_intro hrc)
    exact hcollide ⟨r, c, (hcov r c).2 hrc, hon⟩

end Sys2Proof.Machine
end

section
/-! PROOFS. The rules of the whole machine (spec/10_state.md R23 to R40, spec/60_exceptions.md R191, R202). What each
instruction may write stands in one table, `instrWrites`; `exec_cases` holds `exec` to it, once for all 34 instructions, and
`step_frame_cases` says what the other operations write. Each statement then reads one column of the table. -/

namespace Sys2Proof.Machine

/-! ### What an instruction writes -/

/-- The state an instruction may write when it raises no fault, `PC` aside. -/
def instrWrites (s : State) : Instr → Writes
  | .cls => { pix := true, redraw := true }
  | .ret => { sp := true }
  | .call _ => { sp := true, slots := [s.sp.val] }
  | .ldImm x _ | .addImm x _ | .ldReg x _ | .orReg x _ | .andReg x _ | .xorReg x _ => { regs := [x] }
  | .addReg x _ | .subReg x _ | .shr x _ | .subnReg x _ | .shl x _ => { regs := [x, 15] }
  | .ldI _ | .addI _ | .ldFont _ => { i := true }
  | .rnd x _ => { regs := [x], draws := true }
  | .drw _ _ _ => { regs := [15], pix := true, redraw := true }
  | .ldVxDt x | .ldVxKey x => { regs := [x] }
  | .ldDtVx _ => { dt := true }
  | .ldStVx _ => { st := true }
  | .ldBcd _ => { bytes := List.range' s.i.toNat 3 }
  | .storeRegs x => { bytes := List.range' s.i.toNat (x.val + 1) }
  | .loadRegs x => { regs := (List.finRange 16).filter (· ≤ x) }
  | .jp _ | .jpV0 _ | .seImm _ _ | .sneImm _ _ | .seReg _ _ | .sneReg _ _ | .skp _ | .sknp _ => {}

theorem instrWrites_halt (s : State) (i : Instr) : (instrWrites s i).halt = false := by
  cases i <;> rfl

/-- `t` is the next state of `i` without a fault: the `PC` of R23, the frame of its row, a canonical memory kept. -/
structure Completes (i : Instr) (s t : State) : Prop where
  pc : t.pc = pcAfter s i
  frame : Unchanged (instrWrites s i) s t
  memory : s.memory.wf → t.memory.wf

/-- `exec i s` is the one fault the table of R191 names for `i`. -/
def Faults (i : Instr) (s : State) : Prop :=
  ∃ cause value, faultCause i = some cause ∧ exec i s = .next (s.faulted cause (some (encode i)) value)

/-- `exec i s` answers a next state without a fault. -/
def Succeeds (i : Instr) (s : State) : Prop := ∃ t, exec i s = .next t ∧ Completes i s t

/-! ### The `PC` of a skip and of a key wait -/

theorem skipIf_pc_of_iff {s : State} {c : Bool} {P : Prop} [Decidable P] (h : c = true ↔ P) :
    (s.skipIf c).pc = if P then s.pc + 4 else s.pc + 2 := by
  rw [State.skipIf_pc]
  exact if_congr h rfl rfl

/-- The key a byte names is the only one it names. -/
theorem exists_key_iff {b : Byte} {k : Fin 16} (hk : b.toNat = k.val) {P : Fin 16 → Prop} :
    (∃ j : Fin 16, b.toNat = j.val ∧ P j) ↔ P k := by
  constructor
  · rintro ⟨j, hj, hP⟩
    exact (Fin.ext (hj.symm.trans hk) : j = k) ▸ hP
  · exact fun hP => ⟨k, hk, hP⟩

theorem key_false_of_leastKey_eq_none {s : State} (h : s.leastKey = none) (k : Fin 16) : ¬ s.key[k] = true :=
  List.find?_eq_none.1 h k (List.mem_finRange k)

/-- A byte names a key, or is above 15. -/
theorem byte_key_cases (b : Byte) : (∃ k : Fin 16, b.toNat = k.val) ∨ 15 < b.toNat := by
  rcases Nat.lt_or_ge 15 b.toNat with h | h
  · exact .inr h
  · exact .inl ⟨⟨b.toNat, by omega⟩, rfl⟩

/-! ### Everything an instruction can do -/

theorem exec_skp_cases (x : Reg) (s : State) : Faults (.skp x) s ∨ Succeeds (.skp x) s := by
  obtain ⟨k, hk⟩ | hout := byte_key_cases s.v[x]
  · have hnamed : s.key[k] = true ↔ ∃ j : Fin 16, s.v[x].toNat = j.val ∧ s.key[j] = true := by
      rw [exists_key_iff hk]
    exact .inr ⟨_, exec_skp_key hk, skipIf_pc_of_iff hnamed, Unchanged.skipIf _ _ _, id⟩
  · exact .inl ⟨_, _, rfl, exec_skp_fault hout⟩

theorem exec_sknp_cases (x : Reg) (s : State) : Faults (.sknp x) s ∨ Succeeds (.sknp x) s := by
  obtain ⟨k, hk⟩ | hout := byte_key_cases s.v[x]
  · have hnamed : (!s.key[k]) = true ↔ ∃ j : Fin 16, s.v[x].toNat = j.val ∧ s.key[j] = false := by
      rw [exists_key_iff hk, Bool.not_eq_true']
    exact .inr ⟨_, exec_sknp_key hk, skipIf_pc_of_iff hnamed, Unchanged.skipIf _ _ _, id⟩
  · exact .inl ⟨_, _, rfl, exec_sknp_fault hout⟩

theorem exec_ret_cases (s : State) : Faults .ret s ∨ Succeeds .ret s := by
  obtain ⟨-, hpop, hempty⟩ := returnPopsIntoPc s
  rcases Nat.eq_zero_or_pos s.sp.val with hsp | hsp
  · exact .inl ⟨_, _, rfl, hempty hsp⟩
  · obtain ⟨t, ht, -, hpc, hframe⟩ := hpop hsp
    cases (exec_ret_of_pos hsp).symm.trans ht
    exact .inr ⟨_, ht, hpc, hframe, id⟩

theorem exec_call_cases (nnn : Addr) (s : State) : Faults (.call nnn) s ∨ Succeeds (.call nnn) s := by
  obtain ⟨-, hpush, -⟩ := callPushesReturnAddress nnn s
  rcases Nat.lt_or_ge s.sp.val 16 with hsp | hsp
  · obtain ⟨t, ht, -, -, -, hframe⟩ := hpush hsp
    cases (exec_call_of_lt nnn hsp).symm.trans ht
    exact .inr ⟨_, ht, rfl, hframe, id⟩
  · exact .inl ⟨_, _, rfl, exec_call_full nnn (by omega)⟩

theorem exec_ldVxKey_succeeds (x : Reg) (s : State) : Succeeds (.ldVxKey x) s := by
  cases hk : s.leastKey with
  | some k =>
    have hpc : pcAfter s (.ldVxKey x) = s.pc + 2 := if_pos ⟨k, leastKey_some hk⟩
    exact ⟨_, exec_ldVxKey_pressed x hk, hpc.symm, Unchanged.setV_advance _ _ _, id⟩
  | none =>
    have hpc : pcAfter s (.ldVxKey x) = s.pc :=
      if_neg fun ⟨k, hon⟩ => key_false_of_leastKey_eq_none hk k hon
    exact ⟨s, exec_ldVxKey_waits x hk, hpc.symm, Unchanged.setPc s s.pc _, id⟩

theorem exec_drw_faults_or_succeeds (x y : Reg) (n : Nibble) (s : State) :
    Faults (.drw x y n) s ∨ Succeeds (.drw x y n) s := by
  obtain ⟨a, hfault⟩ | ⟨d, b, hdraw⟩ := exec_drw_cases x y n s
  · exact .inl ⟨_, a, rfl, hfault⟩
  · exact .inr ⟨_, hdraw, rfl, Unchanged.setDisplay_setV_advance s d 15 b, id⟩

theorem exec_ldBcd_cases (x : Reg) (s : State) : Faults (.ldBcd x) s ∨ Succeeds (.ldBcd x) s := by
  rcases Nat.lt_or_ge 4095 (s.i.toNat + 2) with hout | hin
  · exact .inl ⟨_, _, rfl, exec_ldBcd_fault hout⟩
  · exact .inr ⟨_, exec_ldBcd_store hin, rfl, (Unchanged.setMemory_writeBytes s _ (decimalDigits s.v[x])).advance,
      fun hm => wf_writeBytes hm (Nat.succ_le_succ hin)⟩

theorem exec_storeRegs_cases (x : Reg) (s : State) : Faults (.storeRegs x) s ∨ Succeeds (.storeRegs x) s := by
  rcases Nat.lt_or_ge 4095 (s.i.toNat + x.val) with hout | hin
  · exact .inl ⟨_, _, rfl, exec_storeRegs_fault hout⟩
  · have hframe := (Unchanged.setMemory_writeBytes s s.i.toNat (s.groupUpTo x)).advance
    rw [length_groupUpTo] at hframe
    refine .inr ⟨_, exec_storeRegs_store hin, rfl, hframe, fun hm => wf_writeBytes hm ?_⟩
    rw [length_groupUpTo]
    exact Nat.succ_le_succ hin

theorem exec_loadRegs_cases (x : Reg) (s : State) : Faults (.loadRegs x) s ∨ Succeeds (.loadRegs x) s := by
  obtain ⟨-, hload, -⟩ := registerGroupIsLoaded x s
  rcases Nat.lt_or_ge 4095 (s.i.toNat + x.val) with hout | hin
  · exact .inl ⟨_, _, rfl, exec_loadRegs_fault hout⟩
  · obtain ⟨t, ht, -, hpc, hframe⟩ := hload hin
    cases (exec_loadRegs_load hin).symm.trans ht
    exact .inr ⟨_, ht, hpc, hframe, id⟩

/-- R191: every instruction raises the fault named for it or does what its row says. -/
theorem exec_cases (i : Instr) (s : State) : Faults i s ∨ Succeeds i s := by
  cases i
  case ret => exact exec_ret_cases s
  case call nnn => exact exec_call_cases nnn s
  case skp x => exact exec_skp_cases x s
  case sknp x => exact exec_sknp_cases x s
  case drw x y n => exact exec_drw_faults_or_succeeds x y n s
  case ldBcd x => exact exec_ldBcd_cases x s
  case storeRegs x => exact exec_storeRegs_cases x s
  case loadRegs x => exact exec_loadRegs_cases x s
  case ldVxKey x => exact .inr (exec_ldVxKey_succeeds x s)
  all_goals refine .inr ?_
  case cls => exact ⟨_, exec_cls s, rfl, Unchanged.setDisplay_advance _ _, id⟩
  case jp nnn => exact ⟨_, exec_jp nnn s, rfl, Unchanged.setPc _ _ _, id⟩
  case jpV0 nnn => exact ⟨_, exec_jpV0 nnn s, rfl, Unchanged.setPc _ _ _, id⟩
  case seImm x kk => exact ⟨_, exec_seImm x kk s, skipIf_pc_of_iff beq_iff_eq, Unchanged.skipIf _ _ _, id⟩
  case sneImm x kk => exact ⟨_, exec_sneImm x kk s, skipIf_pc_of_iff bne_iff_ne, Unchanged.skipIf _ _ _, id⟩
  case seReg x y => exact ⟨_, exec_seReg x y s, skipIf_pc_of_iff beq_iff_eq, Unchanged.skipIf _ _ _, id⟩
  case sneReg x y => exact ⟨_, exec_sneReg x y s, skipIf_pc_of_iff bne_iff_ne, Unchanged.skipIf _ _ _, id⟩
  case ldImm | addImm | ldReg | orReg | andReg | xorReg | ldVxDt =>
    exact ⟨_, rfl, rfl, Unchanged.setV_advance _ _ _, id⟩
  case addReg | subReg | shr | subnReg | shl =>
    exact ⟨_, rfl, rfl, Unchanged.setFlagThenResult_advance _ _ _ _, id⟩
  case ldI | addI | ldFont => exact ⟨_, rfl, rfl, Unchanged.setI_advance _ _, id⟩
  case rnd x kk => exact ⟨_, exec_rnd x kk s, rfl, Unchanged.setV_countDraw_advance _ _ _, id⟩
  case ldDtVx x => exact ⟨_, exec_ldDtVx x s, rfl, Unchanged.setDt_advance _ _, id⟩
  case ldStVx x => exact ⟨_, exec_ldStVx x s, rfl, Unchanged.setSt_advance _ _, id⟩

/-- `exec_cases` for a known next state. -/
theorem exec_next_cases {i : Instr} {s t : State} (h : exec i s = .next t) :
    (∃ cause value, faultCause i = some cause ∧ t = s.faulted cause (some (encode i)) value) ∨ Completes i s t := by
  obtain ⟨cause, value, hcause, hfault⟩ | ⟨u, hu, hdone⟩ := exec_cases i s
  · cases hfault.symm.trans h
    exact .inl ⟨cause, value, hcause, rfl⟩
  · cases hu.symm.trans h
    exact .inr hdone

theorem Completes.halt {i : Instr} {s t : State} (h : Completes i s t) : t.halt = s.halt :=
  h.frame.halt (instrWrites_halt s i)

/-- Settles O48: without a fault the latch keeps its value. -/
theorem instructionFaultsArePrecise : Obligations.InstructionFaultsArePrecise := by
  intro i s t hexec hhalt
  obtain ⟨cause, value, -, ht⟩ | hdone := exec_next_cases hexec
  · exact ⟨cause, value, ht⟩
  · exact absurd hdone.halt hhalt

/-- Settles O49: the latch of a fault holds the cause the table names. -/
theorem onlyNamedInstructionsFault : Obligations.OnlyNamedInstructionsFault := by
  intro i s hrun
  obtain ⟨cause, value, hcause, hfault⟩ | ⟨t, ht, hdone⟩ := exec_cases i s
  · refine ⟨_, hfault, fun f hf => ?_⟩
    cases hf
    exact hcause
  · refine ⟨t, ht, fun f hf => ?_⟩
    cases hf.symm.trans (hdone.halt.trans hrun)

/-- Settles O50: a fault leaves `PC`, and its next state is Halted. -/
theorem programCounterFollowsTable : Obligations.ProgramCounterFollowsTable := by
  intro i s t hrun hexec
  obtain ⟨cause, value, -, rfl⟩ | hdone := exec_next_cases hexec
  · exact ⟨fun hrun' => (nomatch hrun'), fun _ => rfl⟩
  · exact ⟨fun _ => hdone.pc, fun hhalted => absurd (hdone.halt.trans hrun) hhalted⟩

/-! ### What a step writes -/

/-- With a fault or without, an instruction changes nothing but what its row lists, the latch and `PC`. -/
theorem exec_frame {i : Instr} {s t : State} (h : exec i s = .next t) :
    Unchanged { instrWrites s i with halt := true } s t := by
  obtain ⟨cause, value, -, rfl⟩ | ⟨-, hframe, -⟩ := exec_next_cases h
  · exact Unchanged.faulted _ _ _ _ _ rfl
  · exact { hframe with halt := fun hlisted => nomatch hlisted }

/-- What a step that constructs no machine writes: what its instruction may write, or the timers, or `redraw`, or the input
latch and the halt latch. -/
theorem step_frame_cases {s t : State} (h : step s = .next t) (hreset : ¬ ResetIsNext s) :
    (∃ i, WillExecute s i ∧ exec i s.takeOperation = .next t) ∨
    (∃ k, nextOperation s = .tick k ∧ t = s.takeOperation.tick k) ∨
    (nextOperation s = .clearRedraw ∧ t = s.takeOperation.clearRedraw) ∨
    Unchanged { key := true, halt := true } s.takeOperation t := by
  obtain ⟨hr, -⟩ | ⟨-, k, hop, rfl⟩ | ⟨-, k, b, -, rfl⟩ | ⟨-, hop, rfl⟩ |
    ⟨-, -, ⟨cause, op, value, rfl⟩ | ⟨-, rfl⟩ | ⟨i, hw, hexec⟩⟩ := step_cases h
  · exact absurd hr hreset
  · exact .inr (.inl ⟨k, hop, rfl⟩)
  · exact .inr (.inr (.inr { Unchanged.setKey _ k b with halt := fun _ => rfl }))
  · exact .inr (.inr (.inl ⟨hop, rfl⟩))
  · exact .inr (.inr (.inr (Unchanged.faulted _ _ _ _ _ rfl)))
  · exact .inr (.inr (.inr (Unchanged.setPc _ _ _)))
  · exact .inl ⟨i, hw, hexec⟩

/-! ### The columns of the table -/

theorem mem_bytes_instrWrites {s : State} {i : Instr} {a : Nat} (h : a ∈ (instrWrites s i).bytes) :
    ∃ x, (i = .ldBcd x ∧ s.i.toNat ≤ a ∧ a ≤ s.i.toNat + 2) ∨
      (i = .storeRegs x ∧ s.i.toNat ≤ a ∧ a ≤ s.i.toNat + x.val) := by
  cases i
  case ldBcd x =>
    obtain ⟨hlow, hhigh⟩ := List.mem_range'_1.1 h
    exact ⟨x, .inl ⟨rfl, hlow, by omega⟩⟩
  case storeRegs x =>
    obtain ⟨hlow, hhigh⟩ := List.mem_range'_1.1 h
    exact ⟨x, .inr ⟨rfl, hlow, by omega⟩⟩
  all_goals exact absurd h List.not_mem_nil

theorem eq_ldDtVx_of_instrWrites {s : State} {i : Instr} (h : (instrWrites s i).dt ≠ false) : ∃ x, i = .ldDtVx x := by
  cases i
  case ldDtVx x => exact ⟨x, rfl⟩
  all_goals exact absurd rfl h

theorem eq_ldStVx_of_instrWrites {s : State} {i : Instr} (h : (instrWrites s i).st ≠ false) : ∃ x, i = .ldStVx x := by
  cases i
  case ldStVx x => exact ⟨x, rfl⟩
  all_goals exact absurd rfl h

theorem eq_call_or_ret_of_instrWrites {s : State} {i : Instr} (h : (instrWrites s i).sp ≠ false) :
    (∃ nnn, i = .call nnn) ∨ i = .ret := by
  cases i
  case call nnn => exact .inl ⟨nnn, rfl⟩
  case ret => exact .inr rfl
  all_goals exact absurd rfl h

theorem mem_slots_instrWrites {s : State} {i : Instr} {k : Nat} (h : k ∈ (instrWrites s i).slots) :
    k = s.sp.val ∧ ∃ nnn, i = .call nnn := by
  cases i
  case call nnn => exact ⟨List.mem_singleton.1 h, nnn, rfl⟩
  all_goals exact absurd h List.not_mem_nil

theorem eq_index_instr_of_instrWrites {s : State} {i : Instr} (h : (instrWrites s i).i ≠ false) :
    (∃ nnn, i = .ldI nnn) ∨ ∃ x, i = .addI x ∨ i = .ldFont x := by
  cases i
  case ldI nnn => exact .inl ⟨nnn, rfl⟩
  case addI x => exact .inr ⟨x, .inl rfl⟩
  case ldFont x => exact .inr ⟨x, .inr rfl⟩
  all_goals exact absurd rfl h

theorem eq_display_instr_of_instrWrites {s : State} {i : Instr} (h : (instrWrites s i).redraw ≠ false) :
    i = .cls ∨ ∃ x y n, i = .drw x y n := by
  cases i
  case cls => exact .inl rfl
  case drw x y n => exact .inr ⟨x, y, n, rfl⟩
  all_goals exact absurd rfl h

/-! ### The statements about one piece of state -/

/-- Settles O54: no other operation writes memory, and the table bounds the bytes. -/
theorem onlyStoresChangeMemory : Obligations.OnlyStoresChangeMemory := by
  intro s t a hstep hreset hbyte
  obtain ⟨i, hw, hexec⟩ | ⟨k, -, rfl⟩ | ⟨-, rfl⟩ | hframe := step_frame_cases hstep hreset
  · have hmem : a ∈ (instrWrites s.takeOperation i).bytes := by
      by_contra hout
      exact hbyte ((exec_frame hexec).bytes a hout)
    obtain ⟨x, ⟨rfl, hrange⟩ | ⟨rfl, hrange⟩⟩ := mem_bytes_instrWrites hmem
    · exact ⟨x, .inl ⟨hw, hrange⟩⟩
    · exact ⟨x, .inr ⟨hw, hrange⟩⟩
  · exact absurd rfl hbyte
  · exact absurd rfl hbyte
  · exact absurd (hframe.bytes a List.not_mem_nil) hbyte

/-- A tick that changes a timer lowers it. -/
theorem tickByte_lt_of_ne {b : Byte} {k : Nat} (h : tickByte b k ≠ b) : (tickByte b k).toNat < b.toNat := by
  have hne := BitVec.toNat_ne_iff_ne.2 h
  rw [tickByte_toNat] at hne ⊢
  omega

/-- Settles O55: among the instructions the table names one for each timer, and of the other operations only a tick writes
them. -/
theorem timersChangeOnlyAsListed : Obligations.TimersChangeOnlyAsListed := by
  intro s t hstep hreset
  obtain ⟨i, hw, hexec⟩ | ⟨k, hop, rfl⟩ | ⟨-, rfl⟩ | hframe := step_frame_cases hstep hreset
  · have hframe := exec_frame hexec
    refine ⟨fun hdt => .inl ?_, fun hst => .inl ?_⟩
    · obtain ⟨x, rfl⟩ := eq_ldDtVx_of_instrWrites (mt hframe.dt hdt)
      exact ⟨x, hw⟩
    · obtain ⟨x, rfl⟩ := eq_ldStVx_of_instrWrites (mt hframe.st hst)
      exact ⟨x, hw⟩
  · exact ⟨fun hdt => .inr ⟨⟨k, hop⟩, tickByte_lt_of_ne hdt⟩, fun hst => .inr ⟨⟨k, hop⟩, tickByte_lt_of_ne hst⟩⟩
  · exact ⟨fun hdt => absurd rfl hdt, fun hst => absurd rfl hst⟩
  · exact ⟨fun hdt => absurd (hframe.dt rfl) hdt, fun hst => absurd (hframe.st rfl) hst⟩

/-- A call that moves `SP` raises it by one. -/
theorem sp_of_exec_call {nnn : Addr} {s t : State} (h : exec (.call nnn) s = .next t) (hsp : t.sp ≠ s.sp) :
    t.sp.val = s.sp.val + 1 := by
  rcases Nat.lt_or_ge s.sp.val 16 with hlt | hge
  · cases (exec_call_of_lt nnn hlt).symm.trans h
    rfl
  · cases (exec_call_full nnn (by omega)).symm.trans h
    exact absurd rfl hsp

/-- A return that moves `SP` lowers it by one. -/
theorem sp_of_exec_ret {s t : State} (h : exec .ret s = .next t) (hsp : t.sp ≠ s.sp) : t.sp.val + 1 = s.sp.val := by
  rcases Nat.eq_zero_or_pos s.sp.val with hzero | hpos
  · cases (exec_ret_empty hzero).symm.trans h
    exact absurd rfl hsp
  · cases (exec_ret_of_pos hpos).symm.trans h
    exact Nat.sub_add_cancel hpos

/-- Settles O56: the table names `2nnn` for the slots, `2nnn` and `00EE` for `SP`. -/
theorem onlyCallAndReturnChangeStack : Obligations.OnlyCallAndReturnChangeStack := by
  intro s t hstep hreset
  obtain ⟨i, hw, hexec⟩ | ⟨k, -, rfl⟩ | ⟨-, rfl⟩ | hframe := step_frame_cases hstep hreset
  · have hframe := exec_frame hexec
    refine ⟨fun k hslot => ?_, fun hsp => ?_⟩
    · have hmem : k.val ∈ (instrWrites s.takeOperation i).slots := by
        by_contra hout
        exact hslot (hframe.slots k hout)
      obtain ⟨hk, nnn, rfl⟩ := mem_slots_instrWrites hmem
      exact ⟨hk, nnn, hw⟩
    · obtain ⟨nnn, rfl⟩ | rfl := eq_call_or_ret_of_instrWrites (mt hframe.sp hsp)
      · exact .inl ⟨⟨nnn, hw⟩, sp_of_exec_call (s := s.takeOperation) hexec hsp⟩
      · exact .inr ⟨hw, sp_of_exec_ret (s := s.takeOperation) hexec hsp⟩
  · exact ⟨fun k hslot => absurd rfl hslot, fun hsp => absurd rfl hsp⟩
  · exact ⟨fun k hslot => absurd rfl hslot, fun hsp => absurd rfl hsp⟩
  · exact ⟨fun k hslot => absurd (hframe.slots k List.not_mem_nil) hslot, fun hsp => absurd (hframe.sp rfl) hsp⟩

/-- Settles O57: no other operation writes `I`, and the table names three instructions. -/
theorem onlyIndexInstructionsChangeI : Obligations.OnlyIndexInstructionsChangeI := by
  intro s t hstep hreset hi
  obtain ⟨i, hw, hexec⟩ | ⟨k, -, rfl⟩ | ⟨-, rfl⟩ | hframe := step_frame_cases hstep hreset
  · obtain ⟨nnn, rfl⟩ | ⟨x, rfl | rfl⟩ := eq_index_instr_of_instrWrites (mt (exec_frame hexec).i hi)
    · exact .inl ⟨nnn, hw⟩
    · exact .inr ⟨x, .inl hw⟩
    · exact .inr ⟨x, .inr hw⟩
  · exact absurd rfl hi
  · exact absurd rfl hi
  · exact absurd (hframe.i rfl) hi

/-- No instruction clears `redraw`. -/
theorem redraw_of_exec_of_redraw {i : Instr} {s t : State} (h : exec i s = .next t) (hs : s.redraw = true) :
    t.redraw = true := by
  obtain (rfl | ⟨x, y, n, rfl⟩) | ⟨u, hu, -, hkeep⟩ := exec_keeps_display i s
  · cases (exec_cls s).symm.trans h
    rfl
  · obtain ⟨a, hfault⟩ | ⟨d, b, hdraw⟩ := exec_drw_cases x y n s
    · cases hfault.symm.trans h
      exact hs
    · cases hdraw.symm.trans h
      rfl
  · cases hu.symm.trans h
    exact hkeep.trans hs

/-- A machine construction leaves `redraw` false. -/
theorem redraw_of_resetIsNext {s t : State} (h : step s = .next t) (hreset : ResetIsNext s) : t.redraw = false := by
  obtain ⟨-, m, -, rfl⟩ | ⟨-, k, hop, -⟩ | ⟨-, k, b, hop, -⟩ | ⟨-, hop, -⟩ | ⟨-, hop, -⟩ := step_cases h
  · rfl
  all_goals
    obtain hr | ⟨image, fontFirst, hr⟩ := hreset
    · cases hop.symm.trans hr
    · cases hop.symm.trans hr

theorem redraw_rises {s t : State} (h : step s = .next t) (hs : s.redraw = false) (ht : t.redraw = true) :
    WillExecute s .cls ∨ ∃ x y n, WillExecute s (.drw x y n) := by
  have hrise : t.redraw ≠ s.redraw := by
    rw [hs, ht]
    decide
  have hreset : ¬ ResetIsNext s := fun hr => Bool.noConfusion ((redraw_of_resetIsNext h hr).symm.trans ht)
  obtain ⟨i, hw, hexec⟩ | ⟨k, -, rfl⟩ | ⟨-, rfl⟩ | hframe := step_frame_cases h hreset
  · obtain rfl | ⟨x, y, n, rfl⟩ := eq_display_instr_of_instrWrites (mt (exec_frame hexec).redraw hrise)
    · exact .inl hw
    · exact .inr ⟨x, y, n, hw⟩
  · exact absurd rfl hrise
  · cases ht
  · exact absurd (hframe.redraw rfl) hrise

theorem redraw_falls {s t : State} (h : step s = .next t) (hs : s.redraw = true) (ht : t.redraw = false) :
    nextOperation s = .clearRedraw ∨ ResetIsNext s := by
  by_cases hreset : ResetIsNext s
  · exact .inr hreset
  obtain ⟨i, -, hexec⟩ | ⟨k, -, rfl⟩ | ⟨hop, -⟩ | hframe := step_frame_cases h hreset
  · exact Bool.noConfusion ((redraw_of_exec_of_redraw hexec hs).symm.trans ht)
  · exact Bool.noConfusion (hs.symm.trans ht)
  · exact .inl hop
  · exact Bool.noConfusion (hs.symm.trans ((hframe.redraw rfl).symm.trans ht))

/-- Settles O52: the two directions, and the clear itself. -/
theorem redrawRisesAndFallsOnlyAsListed : Obligations.RedrawRisesAndFallsOnlyAsListed := by
  refine ⟨fun s t hstep => ⟨redraw_rises hstep, redraw_falls hstep⟩, fun s hrun hop => ?_⟩
  rw [step_running hrun, hop, performRunning, State.clearRedraw]

end Sys2Proof.Machine
end

section
/-! PROOFS. The invariant (spec/10_state.md R24, R40): every step keeps it. It speaks of memory, `PC`, `SP` and the stack
only; the instructions that move `SP` are taken one by one, all others go through `exec_next_cases`. -/

namespace Sys2Proof.Machine

/-! ### What the invariant depends on -/

/-- The invariant of a state whose stack is as before, with a canonical memory and a bounded `PC`. -/
theorem State.Inv.of_same_stack {s t : State} (h : s.Inv) (hm : t.memory.wf) (hpc : t.pc.toNat ≤ 0x10FE)
    (hsp : t.sp = s.sp) (hstack : ∀ k : Fin 16, t.stack[k] = s.stack[k]) : t.Inv := by
  obtain ⟨-, -, hlive⟩ := h
  refine ⟨hm, hpc, fun k hk => ?_⟩
  rw [hstack]
  exact hlive k (hsp ▸ hk)

theorem inv_faulted {s : State} (h : s.Inv) (cause : Cause) (op : Option Word) (value : Nat) :
    (s.faulted cause op value).Inv := h

theorem inv_resetMachine_setMemory (s : State) {m : Memory} (hm : m.wf) : ((resetMachine s).setMemory m).Inv :=
  ⟨hm, by simp, fun k hk => absurd hk (Nat.not_lt_zero _)⟩

theorem pc_add_two_toNat {w : Word} (h : w.toNat ≤ 4094) : (w + 2).toNat = w.toNat + 2 := by
  have htwo : (2 : Word).toNat = 2 := rfl
  rw [BitVec.toNat_add, htwo]
  omega

theorem pc_add_four_toNat {w : Word} (h : w.toNat ≤ 4094) : (w + 4).toNat = w.toNat + 4 := by
  have hfour : (4 : Word).toNat = 4 := rfl
  rw [BitVec.toNat_add, hfour]
  omega

/-- An ignored word moves `PC` to 4096 at most. -/
theorem inv_advance {s : State} (h : s.Inv) (hpc : s.pc.toNat ≤ 4094) : s.advance.Inv := by
  refine h.of_same_stack h.1 ?_ rfl fun _ => rfl
  rw [State.advance_pc, pc_add_two_toNat hpc]
  omega

/-! ### The bound of `PC` (R24) -/

/-- A jump leaves a `PC` of 0x10FE at most, any other instruction but `00EE` one of `PC + 4` at most. -/
theorem pcAfter_toNat_le {s : State} {i : Instr} (hi : i ≠ .ret) (hpc : s.pc.toNat ≤ 4094) :
    (pcAfter s i).toNat ≤ 0x10FE := by
  have htwo := pc_add_two_toNat hpc
  have hfour := pc_add_four_toNat hpc
  cases i
  case ret => exact absurd rfl hi
  case jp nnn | call nnn =>
    have htarget : (pcAfter s (.jp nnn)).toNat = nnn.toNat := addrOperand_toNat nnn
    have hlt := nnn.isLt
    exact htarget.trans_le (by omega)
  case jpV0 nnn =>
    have htarget : (pcAfter s (.jpV0 nnn)).toNat = nnn.toNat + s.v[0].toNat := jumpTarget_toNat nnn s.v[0]
    rw [htarget]
    omega
  case seImm | sneImm | seReg | sneReg | skp | sknp | ldVxKey =>
    simp only [pcAfter]
    split <;> omega
  all_goals exact htwo.trans_le (by omega)

/-! ### The stack -/

/-- A return pops a live entry into `PC`. -/
theorem inv_exec_ret {s t : State} (h : s.Inv) (hexec : exec .ret s = .next t) : t.Inv := by
  have ⟨hm, _, hlive⟩ := h
  rcases Nat.eq_zero_or_pos s.sp.val with hzero | hpos
  · cases (exec_ret_empty hzero).symm.trans hexec
    exact inv_faulted h _ _ _
  · cases (exec_ret_of_pos hpos).symm.trans hexec
    have htop := hlive ⟨s.sp.val - 1, by omega⟩ (Nat.sub_lt hpos Nat.one_pos)
    exact ⟨hm, htop.2.trans (by decide), fun k hk => hlive k (Nat.lt_of_lt_of_le hk (Nat.sub_le _ _))⟩

/-- A call pushes a return address of 2 to 4096. -/
theorem inv_exec_call {nnn : Addr} {s t : State} (h : s.Inv) (hpc : s.pc.toNat ≤ 4094)
    (hexec : exec (.call nnn) s = .next t) : t.Inv := by
  have ⟨hm, _, hlive⟩ := h
  rcases Nat.lt_or_ge s.sp.val 16 with hlt | hfull
  · obtain ⟨-, hpush, -⟩ := callPushesReturnAddress nnn s
    obtain ⟨u, hu, hslot, hsp, hjump, hframe⟩ := hpush hlt
    cases (exec_call_of_lt nnn hlt).symm.trans hexec
    cases (exec_call_of_lt nnn hlt).symm.trans hu
    have htwo := pc_add_two_toNat hpc
    refine ⟨hm, by rw [hjump]; omega, fun k hk => ?_⟩
    by_cases hkey : k.val = s.sp.val
    · have hk' : k = ⟨s.sp.val, hlt⟩ := Fin.ext hkey
      rw [hk', Fin.getElem_fin, hslot, htwo]
      omega
    · rw [hframe.slots k (by simpa using hkey)]
      exact hlive k (by omega)
  · cases (exec_call_full nnn (by omega)).symm.trans hexec
    exact inv_faulted h _ _ _

/-! ### Every instruction and every step -/

theorem slots_instrWrites_eq_nil {s : State} {i : Instr} (hcall : ∀ nnn, i ≠ .call nnn) :
    (instrWrites s i).slots = [] := by
  cases i
  case call nnn => exact absurd rfl (hcall nnn)
  all_goals rfl

/-- An instruction that moves no stack keeps the invariant. -/
theorem inv_exec_of_no_stack {i : Instr} {s t : State} (h : s.Inv) (hpc : s.pc.toNat ≤ 4094) (hret : i ≠ .ret)
    (hcall : ∀ nnn, i ≠ .call nnn) (hexec : exec i s = .next t) : t.Inv := by
  obtain ⟨cause, value, -, rfl⟩ | ⟨hafter, hframe, hmem⟩ := exec_next_cases hexec
  · exact inv_faulted h _ _ _
  · have hsp : (instrWrites s i).sp = false := by
      by_contra hmoves
      obtain ⟨nnn, rfl⟩ | rfl := eq_call_or_ret_of_instrWrites hmoves
      · exact hcall nnn rfl
      · exact hret rfl
    refine h.of_same_stack (hmem h.1) (hafter ▸ pcAfter_toNat_le hret hpc) (hframe.sp hsp) fun k => hframe.slots k ?_
    rw [slots_instrWrites_eq_nil hcall]
    exact List.not_mem_nil

theorem inv_exec {i : Instr} {s t : State} (h : s.Inv) (hpc : s.pc.toNat ≤ 4094) (hexec : exec i s = .next t) :
    t.Inv := by
  by_cases hret : i = .ret
  · subst hret
    exact inv_exec_ret h hexec
  by_cases hcall : ∃ nnn, i = .call nnn
  · obtain ⟨nnn, rfl⟩ := hcall
    exact inv_exec_call h hpc hexec
  · exact inv_exec_of_no_stack h hpc hret (fun nnn he => hcall ⟨nnn, he⟩) hexec

/-- Settles O60: a machine construction builds the invariant, a host operation touches nothing it speaks of, and a Step
fetches from 4094 at most. -/
theorem everyStepKeepsInvariant : Obligations.EveryStepKeepsInvariant := by
  intro s t hinv hstep
  have htaken : s.takeOperation.Inv := hinv
  obtain ⟨-, m, hm, rfl⟩ | ⟨-, k, -, rfl⟩ | ⟨-, k, b, -, rfl⟩ | ⟨-, -, rfl⟩ |
    ⟨-, -, ⟨cause, op, value, rfl⟩ | ⟨hpc, rfl⟩ | ⟨i, ⟨-, -, hpc, -⟩, hexec⟩⟩ := step_cases hstep
  · exact inv_resetMachine_setMemory _ hm
  -- a tick, a key write and a flag clear
  iterate 3 exact htaken
  · exact inv_faulted htaken cause op value
  · exact inv_advance htaken hpc
  · exact inv_exec htaken hpc hexec

end Sys2Proof.Machine
end

section
/-! PROOFS. What no instruction reads: `ST` and `redraw` (spec/10_state.md R29, R32). An instruction that tests something
tests neither, so both runs take the same branch. -/

namespace Sys2Proof.Machine

/-- `s` with other values of `ST` and `redraw`. -/
def State.withSoundRedraw (s : State) (b : Byte) (c : Bool) : State := { s with st := b, redraw := c }

/-- With other values of `ST` and `redraw`, instruction `i` does the same to everything else. -/
def IgnoresSoundAndRedraw (i : Instr) (s : State) (b : Byte) (c : Bool) : Prop :=
  ∃ t u, exec i s = .next t ∧ exec i (s.withSoundRedraw b c) = .next u ∧
    { u with st := t.st, redraw := t.redraw } = t

theorem ignoresSoundAndRedraw_ret (s : State) (b : Byte) (c : Bool) : IgnoresSoundAndRedraw .ret s b c := by
  rcases Nat.eq_zero_or_pos s.sp.val with hzero | hpos
  · exact ⟨_, _, exec_ret_empty hzero, exec_ret_empty (s := s.withSoundRedraw b c) hzero, rfl⟩
  · exact ⟨_, _, exec_ret_of_pos hpos, exec_ret_of_pos (s := s.withSoundRedraw b c) hpos, rfl⟩

theorem ignoresSoundAndRedraw_call (nnn : Addr) (s : State) (b : Byte) (c : Bool) :
    IgnoresSoundAndRedraw (.call nnn) s b c := by
  rcases Nat.lt_or_ge s.sp.val 16 with hlt | hge
  · exact ⟨_, _, exec_call_of_lt nnn hlt, exec_call_of_lt (s := s.withSoundRedraw b c) nnn hlt, rfl⟩
  · have hfull : s.sp.val = 16 := by omega
    exact ⟨_, _, exec_call_full nnn hfull, exec_call_full (s := s.withSoundRedraw b c) nnn hfull, rfl⟩

theorem ignoresSoundAndRedraw_skp (x : Reg) (s : State) (b : Byte) (c : Bool) :
    IgnoresSoundAndRedraw (.skp x) s b c := by
  obtain ⟨k, hk⟩ | hout := byte_key_cases s.v[x]
  · exact ⟨_, _, exec_skp_key hk, exec_skp_key (s := s.withSoundRedraw b c) hk, rfl⟩
  · exact ⟨_, _, exec_skp_fault hout, exec_skp_fault (s := s.withSoundRedraw b c) hout, rfl⟩

theorem ignoresSoundAndRedraw_sknp (x : Reg) (s : State) (b : Byte) (c : Bool) :
    IgnoresSoundAndRedraw (.sknp x) s b c := by
  obtain ⟨k, hk⟩ | hout := byte_key_cases s.v[x]
  · exact ⟨_, _, exec_sknp_key hk, exec_sknp_key (s := s.withSoundRedraw b c) hk, rfl⟩
  · exact ⟨_, _, exec_sknp_fault hout, exec_sknp_fault (s := s.withSoundRedraw b c) hout, rfl⟩

theorem ignoresSoundAndRedraw_ldVxKey (x : Reg) (s : State) (b : Byte) (c : Bool) :
    IgnoresSoundAndRedraw (.ldVxKey x) s b c := by
  cases hk : s.leastKey with
  | some k => exact ⟨_, _, exec_ldVxKey_pressed x hk, exec_ldVxKey_pressed (s := s.withSoundRedraw b c) x hk, rfl⟩
  | none => exact ⟨_, _, exec_ldVxKey_waits x hk, exec_ldVxKey_waits (s := s.withSoundRedraw b c) x hk, rfl⟩

theorem ignoresSoundAndRedraw_drw (x y : Reg) (n : Nibble) (s : State) (b : Byte) (c : Bool) :
    IgnoresSoundAndRedraw (.drw x y n) s b c := by
  by_cases hin : n.toNat = 0 ∨ s.i.toNat + n.toNat ≤ 4096
  · exact ⟨_, _, exec_drw_draw hin, exec_drw_draw (s := s.withSoundRedraw b c) hin, rfl⟩
  · obtain ⟨hn, hout⟩ := not_or.1 hin
    rw [Nat.not_le] at hout
    exact ⟨_, _, exec_drw_fault hn hout, exec_drw_fault (s := s.withSoundRedraw b c) hn hout, rfl⟩

theorem ignoresSoundAndRedraw_ldBcd (x : Reg) (s : State) (b : Byte) (c : Bool) :
    IgnoresSoundAndRedraw (.ldBcd x) s b c := by
  rcases Nat.lt_or_ge 4095 (s.i.toNat + 2) with hout | hin
  · exact ⟨_, _, exec_ldBcd_fault hout, exec_ldBcd_fault (s := s.withSoundRedraw b c) hout, rfl⟩
  · exact ⟨_, _, exec_ldBcd_store hin, exec_ldBcd_store (s := s.withSoundRedraw b c) hin, rfl⟩

theorem ignoresSoundAndRedraw_storeRegs (x : Reg) (s : State) (b : Byte) (c : Bool) :
    IgnoresSoundAndRedraw (.storeRegs x) s b c := by
  rcases Nat.lt_or_ge 4095 (s.i.toNat + x.val) with hout | hin
  · exact ⟨_, _, exec_storeRegs_fault hout, exec_storeRegs_fault (s := s.withSoundRedraw b c) hout, rfl⟩
  · exact ⟨_, _, exec_storeRegs_store hin, exec_storeRegs_store (s := s.withSoundRedraw b c) hin, rfl⟩

theorem setGroup_advance_withSoundRedraw (s : State) (b : Byte) (c : Bool) (g : Vector Byte 16) :
    { ((s.withSoundRedraw b c).setGroup g).advance with st := s.st, redraw := s.redraw } = (s.setGroup g).advance :=
  rfl

theorem ignoresSoundAndRedraw_loadRegs (x : Reg) (s : State) (b : Byte) (c : Bool) :
    IgnoresSoundAndRedraw (.loadRegs x) s b c := by
  rcases Nat.lt_or_ge 4095 (s.i.toNat + x.val) with hout | hin
  · exact ⟨_, _, exec_loadRegs_fault hout, exec_loadRegs_fault (s := s.withSoundRedraw b c) hout, rfl⟩
  · have hgroup : (s.withSoundRedraw b c).groupFromMemory x = s.groupFromMemory x := rfl
    have hload := exec_loadRegs_load (s := s.withSoundRedraw b c) hin
    exact ⟨_, _, exec_loadRegs_load hin, hgroup ▸ hload, setGroup_advance_withSoundRedraw s b c _⟩

/-- The other 25 instructions test nothing, or registers only. -/
theorem ignoresSoundAndRedraw (i : Instr) (s : State) (b : Byte) (c : Bool) : IgnoresSoundAndRedraw i s b c := by
  cases i
  case ret => exact ignoresSoundAndRedraw_ret s b c
  case call nnn => exact ignoresSoundAndRedraw_call nnn s b c
  case skp x => exact ignoresSoundAndRedraw_skp x s b c
  case sknp x => exact ignoresSoundAndRedraw_sknp x s b c
  case ldVxKey x => exact ignoresSoundAndRedraw_ldVxKey x s b c
  case drw x y n => exact ignoresSoundAndRedraw_drw x y n s b c
  case ldBcd x => exact ignoresSoundAndRedraw_ldBcd x s b c
  case storeRegs x => exact ignoresSoundAndRedraw_storeRegs x s b c
  case loadRegs x => exact ignoresSoundAndRedraw_loadRegs x s b c
  all_goals exact ⟨_, _, rfl, rfl, rfl⟩

/-- Settles O53: the next state of `exec` is the one `ignoresSoundAndRedraw` compares. -/
theorem noInstructionReadsSoundTimerOrRedraw : Obligations.NoInstructionReadsSoundTimerOrRedraw := by
  intro i s t b c hexec
  obtain ⟨t', u, ht, hu, hagree⟩ := ignoresSoundAndRedraw i s b c
  cases ht.symm.trans hexec
  exact ⟨u, hu, hagree⟩

end Sys2Proof.Machine
end

section
/-! PROOFS. The boot sequence (spec/70_reset_and_hazards.md R222): `Reset`, then two loads into an empty memory. What two
loads leave is said for any two byte sequences, the later one standing where they overlap (log 25). -/

namespace Sys2Proof.Machine

/-! ### Two loads -/

theorem read_writeBytes_at {m : Memory} {a k : Nat} {bs : List Byte} (hm : m.wf) (ha : a + bs.length ≤ memSize)
    (hlow : a ≤ k) (hhigh : k - a < bs.length) : (writeBytes m a bs).read k = bs[k - a] := by
  rw [← read_writeBytes_inside hm ha hhigh, Nat.add_sub_cancel' hlow]

/-- Loads of two ranges that do not meet may be exchanged. -/
theorem writeBytes_comm {m : Memory} {a b : Nat} {bs cs : List Byte} (hm : m.wf) (hmeet : a + bs.length ≤ b)
    (hb : b + cs.length ≤ memSize) :
    writeBytes (writeBytes m a bs) b cs = writeBytes (writeBytes m b cs) a bs := by
  have ha : a + bs.length ≤ memSize := by omega
  have hma := wf_writeBytes hm ha
  have hmb := wf_writeBytes hm hb
  refine Memory.eq_of_read (wf_writeBytes hma hb) (wf_writeBytes hmb ha) fun k => ?_
  by_cases hfirst : a ≤ k ∧ k - a < bs.length
  · rw [read_writeBytes_outside (by omega), read_writeBytes_at hm ha hfirst.1 hfirst.2,
      read_writeBytes_at hmb ha hfirst.1 hfirst.2]
  rw [read_writeBytes_outside (m := writeBytes m b cs) (by omega)]
  by_cases hsecond : b ≤ k ∧ k - b < cs.length
  · rw [read_writeBytes_at hma hb hsecond.1 hsecond.2, read_writeBytes_at hm hb hsecond.1 hsecond.2]
  · rw [read_writeBytes_outside (by omega), read_writeBytes_outside (by omega), read_writeBytes_outside (by omega)]

/-- What is at the addresses of two loads into an empty memory: the second sequence, the first where the second does not
reach, and 0 elsewhere. -/
structure HoldsTwoLoads (m : Memory) (a : Nat) (bs : List Byte) (b : Nat) (cs : List Byte) : Prop where
  wf : m.wf
  second : ∀ (k : Nat) (h : k < cs.length), m.read (b + k) = cs[k]
  first : ∀ (k : Nat) (h : k < bs.length), a + k < b ∨ b + cs.length ≤ a + k → m.read (a + k) = bs[k]
  neither : ∀ k : Nat, k < b ∨ b + cs.length ≤ k → k < a ∨ a + bs.length ≤ k → m.read k = 0

theorem holdsTwoLoads_writeBytes {a b : Nat} {bs cs : List Byte} (ha : a + bs.length ≤ memSize)
    (hb : b + cs.length ≤ memSize) : HoldsTwoLoads (writeBytes (writeBytes [] a bs) b cs) a bs b cs where
  wf := wf_writeBytes (wf_writeBytes Memory.wf_nil ha) hb
  second := fun _ hk => read_writeBytes_inside (wf_writeBytes Memory.wf_nil ha) hb hk
  first := fun _ hk hout => (read_writeBytes_outside hout).trans (read_writeBytes_inside Memory.wf_nil ha hk)
  neither := fun k hsecond hfirst =>
    (read_writeBytes_outside hsecond).trans ((read_writeBytes_outside hfirst).trans (Memory.read_nil k))

/-! ### The loader's font -/

theorem loadFont_of_le {base : Word} {font : List Byte} {s : State} (h : base.toNat + font.length ≤ memSize) :
    loadFont base font s = .ok (s.setMemory (writeBytes s.memory base.toNat font)) := by
  obtain ⟨-, hok⟩ | ⟨hout, -⟩ := loadFont_cases base font s
  · exact hok
  · omega

theorem loadFont_of_lt {base : Word} {font : List Byte} {s : State} (h : memSize < base.toNat + font.length) :
    loadFont base font s = .error (.fontOutsideMemory base) := by
  obtain ⟨hfits, -⟩ | ⟨-, herr⟩ := loadFont_cases base font s
  · omega
  · exact herr

/-- Below 0x200 the order of the two loads does not matter. -/
theorem loads_commute {image font : List Byte} {base : Word} {s : State} (hm : s.memory.wf)
    (himage : image.length ≤ 3584) (hbelow : base.toNat + font.length ≤ programBase) :
    (loadFont base font s).bind (loadImage image) = (loadImage image s).bind (loadFont base font) := by
  have hfont : base.toNat + font.length ≤ memSize := hbelow.trans (by decide)
  rw [loadFont_of_le hfont, loadImage_of_le himage]
  simp only [Except.bind]
  rw [loadImage_of_le himage, loadFont_of_le hfont]
  simp only [State.setMemory_memory]
  rw [writeBytes_comm hm hbelow (programBase_add_le himage)]
  rfl

/-! ### The sequence -/

/-- When boot is next, Running or Halted, the step is the boot sequence with the platform's font. -/
theorem step_boot {s : State} {image : List Byte} {fontFirst : Bool} (hop : nextOperation s = .boot image fontFirst) :
    step s = bootWith fontBase fontData image fontFirst s.takeOperation := by
  cases hhalt : s.halt with
  | running => rw [step_running hhalt, hop]; rfl
  | halted f => rw [step_halted hhalt, hop]; rfl

theorem bootWith_fontFirst {image font : List Byte} {base : Word} {s : State} (himage : image.length ≤ 3584)
    (hfont : base.toNat + font.length ≤ memSize) :
    bootWith base font image true s = .next ((resetMachine s).setMemory
      (writeBytes (writeBytes [] base.toNat font) programBase image)) := by
  simp only [bootWith, if_true, loadFont_of_le hfont, Except.bind, loadImage_of_le himage]
  rfl

theorem bootWith_imageFirst {image font : List Byte} {base : Word} {s : State} (himage : image.length ≤ 3584)
    (hfont : base.toNat + font.length ≤ memSize) :
    bootWith base font image false s = .next ((resetMachine s).setMemory
      (writeBytes (writeBytes [] programBase image) base.toNat font)) := by
  simp only [bootWith, Bool.false_eq_true, if_false, loadImage_of_le himage, Except.bind, loadFont_of_le hfont]
  rfl

/-- An image that is too long is met first when it is loaded first, or when the font loads. -/
theorem bootWith_loadError {image font : List Byte} {base : Word} {fontFirst : Bool} {s : State}
    (himage : 3584 < image.length)
    (hmet : fontFirst = false ∨ base.toNat + font.length ≤ memSize) :
    bootWith base font image fontFirst s = .fault (.loadError image.length) := by
  cases fontFirst with
  | false => simp only [bootWith, Bool.false_eq_true, if_false, loadImage_of_lt himage, Except.bind]
  | true =>
    have hfont : base.toNat + font.length ≤ memSize := hmet.resolve_left Bool.noConfusion
    simp only [bootWith, if_true, loadFont_of_le hfont, Except.bind, loadImage_of_lt himage]

/-- A font past memory is met first when it is loaded first, or when the image loads. -/
theorem bootWith_fontOutsideMemory {image font : List Byte} {base : Word} {fontFirst : Bool} {s : State}
    (hfont : memSize < base.toNat + font.length)
    (hmet : fontFirst = true ∨ image.length ≤ 3584) :
    bootWith base font image fontFirst s = .fault (.fontOutsideMemory base) := by
  cases fontFirst with
  | true => simp only [bootWith, if_true, loadFont_of_lt hfont, Except.bind]
  | false =>
    have himage : image.length ≤ 3584 := hmet.resolve_left Bool.noConfusion
    simp only [bootWith, Bool.false_eq_true, if_false, loadImage_of_le himage, Except.bind, loadFont_of_lt hfont]

/-- Settles O47: `HoldsTwoLoads` is read in both orders. -/
theorem bootLoadsFontAndImageInEitherOrder : Obligations.BootLoadsFontAndImageInEitherOrder := by
  refine ⟨fun image font base s hm himage hbelow => ?_, fun image fontFirst s hop => step_boot hop,
    fun image font base fontFirst s => ⟨fun himage hfont => ?_, bootWith_loadError, bootWith_fontOutsideMemory⟩⟩
  · have hfont : base.toNat + font.length ≤ memSize := hbelow.trans (by decide)
    have hcomm := loads_commute hm himage hbelow
    have hok : ∃ t, (loadFont base font s).bind (loadImage image) = .ok t := by
      rw [loadFont_of_le hfont]
      exact ⟨_, loadImage_of_le himage⟩
    obtain ⟨t, ht⟩ := hok
    exact ⟨t, ht, hcomm ▸ ht⟩
  · have hin := programBase_add_le himage
    cases fontFirst with
    | true =>
      obtain ⟨hwf, hsecond, hfirst, hneither⟩ := holdsTwoLoads_writeBytes hfont hin
      exact ⟨_, bootWith_fontFirst himage hfont, fun k hk _ => hsecond k hk,
        fun k hk hout => hfirst k hk (hout.resolve_left Bool.noConfusion), hneither, hwf, rfl⟩
    | false =>
      obtain ⟨hwf, hsecond, hfirst, hneither⟩ := holdsTwoLoads_writeBytes hin hfont
      exact ⟨_, bootWith_imageFirst himage hfont,
        fun k hk hout => hfirst k hk (hout.resolve_left Bool.noConfusion), fun k hk _ => hsecond k hk,
        fun a himg hfnt => hneither a hfnt himg, hwf, rfl⟩

end Sys2Proof.Machine
end
